-- ==== Sys2Proof/Word.lean ====
section
/-! DEFINITION. The word types of the frame-codec block: the byte of a frame buffer and of a control
byte, and the 16-bit frame identifier (spec 00_scope.md R7, R8: bit 0 is the least significant bit). -/

namespace Sys2Proof

/-- One byte of a frame buffer (20_memory.md R34), and a control byte (30_encoding.md R49 to R51). -/
abbrev Byte := BitVec 8

/-- A frame identifier (30_encoding.md R57): 16 bits, unsigned. -/
abbrev FrameId := BitVec 16

/-- The bits `lo + w - 1 : lo` of a byte (00_scope.md R8, `v[hi:lo]`), kept at their own width. -/
abbrev Byte.field (b : Byte) (lo w : Nat) : BitVec w := b.extractLsb' lo w

end Sys2Proof
end

