-- ==== Sys2Proof/Config.lean ====
section
/-! DEFINITION. The parameters of the block (spec 00_scope.md R7), fixed when the block is built
(10_state.md R15), and the data a descriptor set is made of (40_bitfield.md R66). What makes a
parameter set or a descriptor set well-formed stands in Machine/Operands.lean. -/

namespace Sys2Proof

/-- How a sub-field is encoded (40_bitfield.md R66): boolean, fixed small integer, or closed
enumeration, given as its list of (variant name, code) pairs. -/
inductive FieldEnc where
  | bool
  | uint
  | enum (variants : List (String × Nat))
  deriving DecidableEq, Repr

/-- A field descriptor `(name_i, w_i, enc_i)` (40_bitfield.md R66). -/
structure FieldDesc where
  name  : String
  width : Nat
  enc   : FieldEnc
  deriving DecidableEq, Repr

/-- A descriptor set: a container width `N(d)` and its fields, lowest bits first (40_bitfield.md R66,
R67). -/
structure DescSet where
  name   : String
  bits   : Nat
  fields : List FieldDesc
  deriving DecidableEq, Repr

/-- The open parameters of 00_scope.md R7 (log entry 1). BUS_PLACEMENT (D39) has no field: the model
needs none of it. -/
structure Config where
  /-- `N_REG`, the capacity of the registry table (D4). -/
  nReg       : Nat
  /-- `W_SEL`, the width of a codec selector (D5). -/
  wSel       : Nat
  /-- `W_NAME`, the width of an opaque name reference (D6). -/
  wName      : Nat
  /-- `MAX_FRAME`, the largest frame in bytes (D7). -/
  maxFrame   : Nat
  /-- `EXTRA_DSETS`, further descriptor sets beyond the three fixed ones (D8). -/
  extraDsets : List DescSet
  deriving DecidableEq, Repr

/-- `VAL_W`, the width of a scalar operand lane (00_scope.md R7, D3). -/
abbrev valW : Nat := 16

/-- The parameter values of 95_test_vectors.md, which State.reset carries.
DESIGN CHOICE (log entry 2): the spec leaves all five open; claims range over every `Config`. -/
def Config.testVectors : Config :=
  { nReg := 2, wSel := 2, wName := 8, maxFrame := 64, extraDsets := [] }

end Sys2Proof
end

