-- ==== Sys2Proof/Syntax.lean ====
section
/-! DEFINITION. The instructions of the block: one constructor of `Instr` per row of
spec/opcode_table.json, the data they carry, and the words that stand for them on the port. -/

namespace Sys2Proof

/-- The enumeration CallbackType (30_encoding.md R52); every code of its 2 bits is a variant. -/
inductive CallbackType where
  | none
  | synchronous
  | asynchronous
  | reserved
  deriving DecidableEq, Repr

/-- The enumeration SleepMode (30_encoding.md R52). -/
inductive SleepMode where
  | idle
  | deepSleep
  | powerDown
  | reserved
  deriving DecidableEq, Repr

/-- The enumeration FrameFormatVersion (30_encoding.md R52). -/
inductive FrameFormatVersion where
  | version0
  | version1
  | reserved2
  | reserved3
  deriving DecidableEq, Repr

/-- The view a legacy control byte is read in (30_encoding.md R53): `kind` 0 is a command, 1 a
response. -/
inductive FrameKind where
  | command
  | response
  deriving DecidableEq, Repr

/-- The fields of a legacy control byte (41_frame_control.md R79). The fields of the other view are 0.
The default of each field is its cleared value 0. -/
structure LegacyFields where
  kind            : FrameKind := .command
  networkIndex    : BitVec 2 := 0
  callbackType    : CallbackType := .none
  callbackPending : Bool := false
  sleepMode       : SleepMode := .idle
  truncated       : Bool := false
  overflow        : Bool := false
  deriving DecidableEq, Repr

/-- The fields of an extended control byte (41_frame_control.md R80), each cleared to 0 by default. -/
structure ExtFields where
  securityEnabled    : Bool := false
  paddingEnabled     : Bool := false
  reserved           : BitVec 4 := 0
  frameFormatVersion : FrameFormatVersion := .version0
  deriving DecidableEq, Repr

/-- The lane operands of ENV_ENCODE (43_envelope_dispatch.md R104), in the order its rule lists them. -/
structure EnvelopeOperands where
  seq                : Nat := 0
  kind               : Nat := 0
  networkIndex       : Nat := 0
  callbackType       : Nat := 0
  callbackPending    : Nat := 0
  sleepMode          : Nat := 0
  truncated          : Nat := 0
  overflow           : Nat := 0
  securityEnabled    : Nat := 0
  paddingEnabled     : Nat := 0
  reserved           : Nat := 0
  frameFormatVersion : Nat := 0
  id                 : Nat := 0
  deriving DecidableEq, Repr

/-- One constructor per row of spec/opcode_table.json (30_encoding.md R60). A lane operand is a natural
number (00_scope.md R8) that the operation checks against its field width (R10). A byte-buffer operand
is `none` when the record carries no buffer (D24, log entry 9). -/
inductive Instr where
  /-- CFG_WRITE, op 0x01 (44_config.md R107). -/
  | cfgWrite (reg value : Nat)
  /-- CFG_READ, op 0x02 (44_config.md R108). -/
  | cfgRead (reg : Nat)
  /-- BF_PACK, op 0x03 (40_bitfield.md R74). -/
  | bfPack (dset : Nat) (values : List Nat)
  /-- BF_UNPACK, op 0x04 (40_bitfield.md R75). -/
  | bfUnpack (dset c : Nat)
  /-- FC_ENC_CMD, op 0x05 (41_frame_control.md R84). -/
  | fcEncCmd (networkIndex callbackType callbackPending sleepMode : Nat)
  /-- FC_ENC_RSP, op 0x06 (41_frame_control.md R85). -/
  | fcEncRsp (networkIndex callbackType callbackPending truncated overflow : Nat)
  /-- FC_DEC, op 0x07 (41_frame_control.md R86). -/
  | fcDec (b : Nat)
  /-- FC_ENC_EXT, op 0x08 (41_frame_control.md R87). -/
  | fcEncExt (securityEnabled paddingEnabled reserved frameFormatVersion : Nat)
  /-- FC_DEC_EXT, op 0x09 (41_frame_control.md R88). -/
  | fcDecExt (x : Nat)
  /-- ENV_ENCODE, op 0x0A (43_envelope_dispatch.md R104). -/
  | envEncode (operands : EnvelopeOperands) (payload : Option (List Byte))
  /-- ENV_DECODE, op 0x0B (43_envelope_dispatch.md R103). -/
  | envDecode (len : Nat) (frame : Option (List Byte))
  /-- REG_REGISTER, op 0x0C (42_registry.md R93). -/
  | regRegister (id sel name : Nat)
  /-- REG_LOOKUP, op 0x0D (42_registry.md R94). -/
  | regLookup (id : Nat)
  /-- REG_SEAL, op 0x0E (42_registry.md R95). -/
  | regSeal
  /-- REG_CLEAR, op 0x0F (42_registry.md R96). -/
  | regClear
  /-- ILLEGAL: an undefined op code, 0x00 or 0x10 .. 0xFF (30_encoding.md R61, 44_config.md R109). -/
  | illegal (op : Byte)
  /-- W_LCMD, a legacy control byte in the command view (30_encoding.md R49; log entry 10). -/
  | wLcmd (networkIndex : BitVec 2) (callbackType : CallbackType) (callbackPending : Bool) (sleepMode : SleepMode)
  /-- W_LRSP, a legacy control byte in the response view (30_encoding.md R50; log entry 10). -/
  | wLrsp (networkIndex : BitVec 2) (callbackType : CallbackType) (callbackPending truncated overflow : Bool)
  /-- W_EXT, an extended control byte (30_encoding.md R51; log entry 10). -/
  | wExt (securityEnabled paddingEnabled : Bool) (reserved : BitVec 4) (frameFormatVersion : FrameFormatVersion)
  deriving DecidableEq, Repr

/-- The words the decoder reads. A request record as bytes (its layout is the model's, log entry 3), or
one control byte as it stands in an envelope: the legacy byte (offset 1) or the extended byte (offset
2) of 30_encoding.md R55. -/
inductive PortWord where
  | request (bytes : List Byte)
  | legacyByte (b : Byte)
  | extByte (x : Byte)
  deriving DecidableEq, Repr

/-- The pseudo-instructions of 30_encoding.md R65, and R64's ENV_DECODE whose `len` is left out. -/
inductive Pseudo where
  | setFormatLegacy
  | setFormatExtended
  | getCtrl
  | getStatus
  | fcEncCommand (networkIndex callbackType callbackPending sleepMode : Nat)
  | fcEncResponse (networkIndex callbackType callbackPending truncated overflow : Nat)
  | envDecodeBytes (frame : List Byte)
  deriving DecidableEq, Repr

end Sys2Proof
end

