-- ==== Sys2Proof/WellFormed.lean ====
section
/-! DEFINITION. The instructions that have a word on the port. A request's layout is the model's own
(log entry 3): a lane is carried in 32 bits (log entry 4) and a list or a buffer with a 32-bit count.
The operations themselves (Machine/) take every instruction, well-formed or not. -/

namespace Sys2Proof

/-- The lane fits the 32 bits that carry it. -/
def laneFits (x : Nat) : Bool := x < 2 ^ 32

/-- The buffer's byte count fits the 32 bits that carry it; a missing buffer has no count. -/
def bufferFits (buf : Option (List Byte)) : Bool :=
  match buf with
  | none => true
  | some bs => bs.length < 2 ^ 32

/-- The value list's count and every one of its lanes fit. -/
def valuesFit (values : List Nat) : Bool := values.length < 2 ^ 32 && values.all laneFits

/-- An undefined operation code (30_encoding.md R61): 0x00 or 0x10 .. 0xFF. -/
def opIsUndefined (op : Byte) : Bool := op.toNat == 0 || 0x10 ≤ op.toNat

/-- Every lane of the record fits. -/
def EnvelopeOperands.fit (o : EnvelopeOperands) : Bool :=
  [o.seq, o.kind, o.networkIndex, o.callbackType, o.callbackPending, o.sleepMode, o.truncated, o.overflow,
    o.securityEnabled, o.paddingEnabled, o.reserved, o.frameFormatVersion, o.id].all laneFits

/-- The instruction has a word: its lanes, counts and op code can be carried. -/
def Instr.wf : Instr → Bool
  | .cfgWrite reg value => laneFits reg && laneFits value
  | .cfgRead reg => laneFits reg
  | .bfPack dset values => laneFits dset && valuesFit values
  | .bfUnpack dset c => laneFits dset && laneFits c
  | .fcEncCmd ni ct cp sm => laneFits ni && laneFits ct && laneFits cp && laneFits sm
  | .fcEncRsp ni ct cp tr ov => laneFits ni && laneFits ct && laneFits cp && laneFits tr && laneFits ov
  | .fcDec b => laneFits b
  | .fcEncExt se pe rs ver => laneFits se && laneFits pe && laneFits rs && laneFits ver
  | .fcDecExt x => laneFits x
  | .envEncode o payload => o.fit && bufferFits payload
  | .envDecode len frame => laneFits len && bufferFits frame
  | .regRegister id sel name => laneFits id && laneFits sel && laneFits name
  | .regLookup id => laneFits id
  | .regSeal => true
  | .regClear => true
  | .illegal op => opIsUndefined op
  | .wLcmd _ _ _ _ => true
  | .wLrsp _ _ _ _ _ => true
  | .wExt _ _ _ _ => true

end Sys2Proof
end

