-- ==== Sys2Proof/Decode.lean ====
section
/-! DEFINITION. The decoder, total on every word of the port and rejecting by name, and after it the
encoder. The control bytes follow 30_encoding.md R49 to R53 and 41_frame_control.md R79, R80. A
request record begins with its op code (R58, R60); the layout of the operands after it is the model's
(BUS_PLACEMENT is open, 20_memory.md R42; log entries 3, 4, 6). -/

namespace Sys2Proof

/-! ### Enumeration codes (30_encoding.md R52) -/

/-- The 2-bit code of a CallbackType variant. -/
def CallbackType.code : CallbackType → BitVec 2
  | .none => 0
  | .synchronous => 1
  | .asynchronous => 2
  | .reserved => 3

/-- The variant a 2-bit code names; every code names one. -/
def CallbackType.ofCode (c : BitVec 2) : CallbackType :=
  if c = 0 then .none else if c = 1 then .synchronous else if c = 2 then .asynchronous else .reserved

/-- The 2-bit code of a SleepMode variant. -/
def SleepMode.code : SleepMode → BitVec 2
  | .idle => 0
  | .deepSleep => 1
  | .powerDown => 2
  | .reserved => 3

/-- The variant a 2-bit code names. -/
def SleepMode.ofCode (c : BitVec 2) : SleepMode :=
  if c = 0 then .idle else if c = 1 then .deepSleep else if c = 2 then .powerDown else .reserved

/-- The 2-bit code of a FrameFormatVersion variant. -/
def FrameFormatVersion.code : FrameFormatVersion → BitVec 2
  | .version0 => 0
  | .version1 => 1
  | .reserved2 => 2
  | .reserved3 => 3

/-- The variant a 2-bit code names. -/
def FrameFormatVersion.ofCode (c : BitVec 2) : FrameFormatVersion :=
  if c = 0 then .version0 else if c = 1 then .version1 else if c = 2 then .reserved2 else .reserved3

/-- The response indicator of a view (30_encoding.md R53). -/
def FrameKind.code : FrameKind → BitVec 1
  | .command => 0
  | .response => 1

/-! ### Control bytes -/

/-- `decode_legacy(b)` (41_frame_control.md R79): branches on bit 0 before it reads bits 7:6. -/
def decodeLegacy (b : Byte) : LegacyFields :=
  if b.field 0 1 = 0 then
    { kind := .command
      networkIndex := b.field 1 2
      callbackType := .ofCode (b.field 3 2)
      callbackPending := b.getLsbD 5
      sleepMode := .ofCode (b.field 6 2) }
  else
    { kind := .response
      networkIndex := b.field 1 2
      callbackType := .ofCode (b.field 3 2)
      callbackPending := b.getLsbD 5
      truncated := b.getLsbD 6
      overflow := b.getLsbD 7 }

/-- `decode_ext(x)` (41_frame_control.md R80). -/
def decodeExt (x : Byte) : ExtFields :=
  { securityEnabled := x.getLsbD 0
    paddingEnabled := x.getLsbD 1
    reserved := x.field 2 4
    frameFormatVersion := .ofCode (x.field 6 2) }

/-- The row of the opcode table that a legacy control byte belongs to, with its fields (30_encoding.md
R53). -/
def decodeLegacyByte (b : Byte) : Instr :=
  let f := decodeLegacy b
  match f.kind with
  | .command => .wLcmd f.networkIndex f.callbackType f.callbackPending f.sleepMode
  | .response => .wLrsp f.networkIndex f.callbackType f.callbackPending f.truncated f.overflow

/-- W_EXT with its fields: every byte is one (30_encoding.md R51). -/
def decodeExtByte (x : Byte) : Instr :=
  let f := decodeExt x
  .wExt f.securityEnabled f.paddingEnabled f.reserved f.frameFormatVersion

/-- The byte of a command control header, bit 7 first: `SSPCCNN0` (30_encoding.md R49). -/
def lcmdByte (ni : BitVec 2) (ct : CallbackType) (cp : Bool) (sm : SleepMode) : Byte :=
  sm.code ++ BitVec.ofBool cp ++ ct.code ++ ni ++ (0#1)

/-- The byte of a response control header, bit 7 first: `OTPCCNN1` (30_encoding.md R50). -/
def lrspByte (ni : BitVec 2) (ct : CallbackType) (cp tr ov : Bool) : Byte :=
  BitVec.ofBool ov ++ BitVec.ofBool tr ++ BitVec.ofBool cp ++ ct.code ++ ni ++ (1#1)

/-- The extended control byte, bit 7 first: `VVRRRRPS` (30_encoding.md R51). -/
def extByteOf (se pe : Bool) (rs : BitVec 4) (ver : FrameFormatVersion) : Byte :=
  ver.code ++ rs ++ BitVec.ofBool pe ++ BitVec.ofBool se

/-- The 16-bit control word `fc16 = ext ++ legacy` (30_encoding.md R54). -/
def controlWord (ext legacy : Byte) : BitVec 16 := ext ++ legacy

/-! ### Request records -/

/-- Why the decoder refuses a word. -/
inductive DecodeError where
  /-- The record has no byte at all, so no op code. -/
  | noOpCode
  /-- The record ends before an operand of its operation does. -/
  | missingOperand
  /-- A buffer's first byte says neither "present" (0) nor "missing" (1). -/
  | badBufferTag
  deriving DecidableEq, Repr

/-- A lane: four bytes, least significant first (log entries 3 and 4). -/
def takeLane : List Byte → Except DecodeError (Nat × List Byte)
  | a :: b :: c :: d :: rest =>
    .ok (a.toNat + 2 ^ 8 * b.toNat + 2 ^ 16 * c.toNat + 2 ^ 24 * d.toNat, rest)
  | _ => .error .missingOperand

/-- `n` lanes, one after another. -/
def takeLanes : Nat → List Byte → Except DecodeError (List Nat × List Byte)
  | 0, bs => .ok ([], bs)
  | n + 1, bs =>
    match takeLane bs with
    | .error e => .error e
    | .ok (x, rest) =>
      match takeLanes n rest with
      | .error e => .error e
      | .ok (xs, rest') => .ok (x :: xs, rest')

/-- A value list: its count as a lane, then its lanes. -/
def takeValues (bs : List Byte) : Except DecodeError (List Nat × List Byte) :=
  match takeLane bs with
  | .error e => .error e
  | .ok (n, rest) => if 4 * n ≤ rest.length then takeLanes n rest else .error .missingOperand

/-- A byte buffer: 1 when it is missing; else 0, its length as a lane, and its bytes. -/
def takeBuffer : List Byte → Except DecodeError (Option (List Byte) × List Byte)
  | [] => .error .missingOperand
  | tag :: bs =>
    if tag = 1 then .ok (none, bs)
    else if tag = 0 then
      match takeLane bs with
      | .error e => .error e
      | .ok (n, rest) =>
        if n ≤ rest.length then .ok (some (rest.take n), rest.drop n) else .error .missingOperand
    else .error .badBufferTag

/-- Reads the operands of ENV_ENCODE: thirteen lanes in the order of 30_encoding.md R60, then the
payload. -/
def takeEnvelopeOperands (bs : List Byte) : Except DecodeError (EnvelopeOperands × List Byte) := do
  let (seq, bs) ← takeLane bs
  let (kind, bs) ← takeLane bs
  let (ni, bs) ← takeLane bs
  let (ct, bs) ← takeLane bs
  let (cp, bs) ← takeLane bs
  let (sm, bs) ← takeLane bs
  let (tr, bs) ← takeLane bs
  let (ov, bs) ← takeLane bs
  let (se, bs) ← takeLane bs
  let (pe, bs) ← takeLane bs
  let (rs, bs) ← takeLane bs
  let (ver, bs) ← takeLane bs
  let (id, bs) ← takeLane bs
  return ({ seq, kind, networkIndex := ni, callbackType := ct, callbackPending := cp, sleepMode := sm,
            truncated := tr, overflow := ov, securityEnabled := se, paddingEnabled := pe, reserved := rs,
            frameFormatVersion := ver, id }, bs)

/-- Reads a request record: the op code (30_encoding.md R60, R61), then the operation's operands. Bytes
after the last operand are not read (log entry 6); an undefined op code reads no operand (44_config.md
R109). -/
def decodeRequest : List Byte → Except DecodeError Instr
  | [] => .error .noOpCode
  | op :: bs =>
    match op.toNat with
    | 0x01 => do
      let (reg, bs) ← takeLane bs
      let (value, _) ← takeLane bs
      return .cfgWrite reg value
    | 0x02 => do
      let (reg, _) ← takeLane bs
      return .cfgRead reg
    | 0x03 => do
      let (dset, bs) ← takeLane bs
      let (values, _) ← takeValues bs
      return .bfPack dset values
    | 0x04 => do
      let (dset, bs) ← takeLane bs
      let (c, _) ← takeLane bs
      return .bfUnpack dset c
    | 0x05 => do
      let (ni, bs) ← takeLane bs
      let (ct, bs) ← takeLane bs
      let (cp, bs) ← takeLane bs
      let (sm, _) ← takeLane bs
      return .fcEncCmd ni ct cp sm
    | 0x06 => do
      let (ni, bs) ← takeLane bs
      let (ct, bs) ← takeLane bs
      let (cp, bs) ← takeLane bs
      let (tr, bs) ← takeLane bs
      let (ov, _) ← takeLane bs
      return .fcEncRsp ni ct cp tr ov
    | 0x07 => do
      let (b, _) ← takeLane bs
      return .fcDec b
    | 0x08 => do
      let (se, bs) ← takeLane bs
      let (pe, bs) ← takeLane bs
      let (rs, bs) ← takeLane bs
      let (ver, _) ← takeLane bs
      return .fcEncExt se pe rs ver
    | 0x09 => do
      let (x, _) ← takeLane bs
      return .fcDecExt x
    | 0x0A => do
      let (o, bs) ← takeEnvelopeOperands bs
      let (payload, _) ← takeBuffer bs
      return .envEncode o payload
    | 0x0B => do
      let (len, bs) ← takeLane bs
      let (frame, _) ← takeBuffer bs
      return .envDecode len frame
    | 0x0C => do
      let (id, bs) ← takeLane bs
      let (sel, bs) ← takeLane bs
      let (name, _) ← takeLane bs
      return .regRegister id sel name
    | 0x0D => do
      let (id, _) ← takeLane bs
      return .regLookup id
    | 0x0E => .ok .regSeal
    | 0x0F => .ok .regClear
    | _ => .ok (.illegal op)

/-- The decoder: a request record, or a control byte at its place in an envelope. -/
def decode : PortWord → Except DecodeError Instr
  | .request bs => decodeRequest bs
  | .legacyByte b => .ok (decodeLegacyByte b)
  | .extByte x => .ok (decodeExtByte x)

/-! ### The encoder -/

/-- The four bytes of a lane, least significant first. -/
def laneBytes (x : Nat) : List Byte :=
  [BitVec.ofNat 8 x, BitVec.ofNat 8 (x >>> 8), BitVec.ofNat 8 (x >>> 16), BitVec.ofNat 8 (x >>> 24)]

/-- Several lanes, one after another. -/
def lanesBytes (xs : List Nat) : List Byte := xs.flatMap laneBytes

/-- A buffer as `takeBuffer` reads it. -/
def bufferBytes : Option (List Byte) → List Byte
  | none => [1]
  | some bs => 0 :: (laneBytes bs.length ++ bs)

/-- The thirteen lanes of ENV_ENCODE, in the order of 30_encoding.md R60. -/
def EnvelopeOperands.lanes (o : EnvelopeOperands) : List Nat :=
  [o.seq, o.kind, o.networkIndex, o.callbackType, o.callbackPending, o.sleepMode, o.truncated, o.overflow,
    o.securityEnabled, o.paddingEnabled, o.reserved, o.frameFormatVersion, o.id]

/-- The word of an instruction, with the op codes of 30_encoding.md R60. -/
def encode : Instr → PortWord
  | .cfgWrite reg value => .request (0x01 :: lanesBytes [reg, value])
  | .cfgRead reg => .request (0x02 :: lanesBytes [reg])
  | .bfPack dset values => .request (0x03 :: (lanesBytes [dset, values.length] ++ lanesBytes values))
  | .bfUnpack dset c => .request (0x04 :: lanesBytes [dset, c])
  | .fcEncCmd ni ct cp sm => .request (0x05 :: lanesBytes [ni, ct, cp, sm])
  | .fcEncRsp ni ct cp tr ov => .request (0x06 :: lanesBytes [ni, ct, cp, tr, ov])
  | .fcDec b => .request (0x07 :: lanesBytes [b])
  | .fcEncExt se pe rs ver => .request (0x08 :: lanesBytes [se, pe, rs, ver])
  | .fcDecExt x => .request (0x09 :: lanesBytes [x])
  | .envEncode o payload => .request (0x0A :: (lanesBytes o.lanes ++ bufferBytes payload))
  | .envDecode len frame => .request (0x0B :: (lanesBytes [len] ++ bufferBytes frame))
  | .regRegister id sel name => .request (0x0C :: lanesBytes [id, sel, name])
  | .regLookup id => .request (0x0D :: lanesBytes [id])
  | .regSeal => .request [0x0E]
  | .regClear => .request [0x0F]
  | .illegal op => .request [op]
  | .wLcmd ni ct cp sm => .legacyByte (lcmdByte ni ct cp sm)
  | .wLrsp ni ct cp tr ov => .legacyByte (lrspByte ni ct cp tr ov)
  | .wExt se pe rs ver => .extByte (extByteOf se pe rs ver)

/-- The expansions of 30_encoding.md R65 and of R64's ENV_DECODE without `len`. -/
def Pseudo.expand : Pseudo → Instr
  | .setFormatLegacy => .cfgWrite 0x00 0
  | .setFormatExtended => .cfgWrite 0x00 1
  | .getCtrl => .cfgRead 0x00
  | .getStatus => .cfgRead 0x01
  | .fcEncCommand ni ct cp sm => .fcEncCmd ni ct cp sm
  | .fcEncResponse ni ct cp tr ov => .fcEncRsp ni ct cp tr ov
  | .envDecodeBytes frame => .envDecode frame.length (some frame)

/-! ### Words as spec/opcode_table.json numbers them -/

/-- The op codes of the table's request rows that are 8 bits long. -/
def byteLongRequestRows : List Nat := [0x00, 0x05, 0x06, 0x08, 0x0A, 0x0B, 0x0E, 0x0F]

/-- The word whose bits the table numbers `w`: the record's bytes, lowest bits first, and above them
zero bytes for the operands the table gives no bits. An 8-bit word that is no 8-bit request row is a
control byte, since the rows W_LCMD and W_LRSP have 8 bits as well (log entry 11). -/
def tableWord (nbits w : Nat) : PortWord :=
  if nbits = 8 ∧ w % 2 ^ 8 ∉ byteLongRequestRows then .legacyByte (BitVec.ofNat 8 w)
  else .request ((List.range ((nbits + 7) / 8)).map (fun i => BitVec.ofNat 8 ((w % 2 ^ nbits) >>> (8 * i)))
    ++ List.replicate 64 0)

/-- What the decoder reads from a word of the opcode table. -/
def decodeTableWord (nbits w : Nat) : Option Instr :=
  match decode (tableWord nbits w) with
  | .ok i => some i
  | .error _ => none

end Sys2Proof
end

