-- ==== Sys2Proof/Machine/State.lean ====
section
/-! DEFINITION. The state of the block (spec 10_state.md R14 to R28), its result records (30_encoding.md
R59), the reasons a step can stop, and the state after reset. Plain data throughout. -/

namespace Sys2Proof.Machine

/-- The status of a result (60_exceptions.md R110). -/
inductive Status where
  | ok
  | fieldOverflow
  | unknownEnumValue
  | malformedHeader
  | unknownFrameId
  | duplicateFrameId
  | registryFull
  | registryLocked
  | registryAborted
  | illegalOperation
  deriving DecidableEq, Repr

/-- The operand names that `res.info` can hold (60_exceptions.md R112). `frame` and `payload` name a
missing buffer (D24, log entry 9). -/
inductive OperandName where
  | dset
  | values
  | c
  | b
  | x
  | seq
  | kind
  | networkIndex
  | callbackType
  | callbackPending
  | sleepMode
  | truncated
  | overflow
  | securityEnabled
  | paddingEnabled
  | reserved
  | frameFormatVersion
  | id
  | sel
  | name
  | reg
  | value
  | len
  | op
  | frame
  | payload
  deriving DecidableEq, Repr

/-- `res.info` (60_exceptions.md R112): nothing, the name of an operand, or BF_PACK's field index. -/
inductive Info where
  | none
  | operand (n : OperandName)
  | field (i : Nat)
  deriving DecidableEq, Repr

/-- An output port of the demultiplexer (10_state.md R31). -/
inductive OutPort where
  | codec (k : Nat)
  | unknown
  deriving DecidableEq, Repr

/-- A route (43_envelope_dispatch.md R99): an output port, or NONE when nothing is delivered. -/
abbrev Route := Option OutPort

/-- The delivery record of a decoded frame (43_envelope_dispatch.md R100). -/
structure DeliveryRecord where
  seq        : Byte
  legacy     : LegacyFields
  extPresent : Bool
  ext        : ExtFields
  id         : FrameId
  plen       : Nat
  payload    : List Byte
  rsv        : BitVec 5
  deriving DecidableEq, Repr

/-- An event of the delivery log (10_state.md R26). -/
structure Delivery where
  port   : OutPort
  record : DeliveryRecord
  deriving DecidableEq, Repr

/-- The result record (30_encoding.md R59) with the data fields of R60. The default of each data field
is its cleared value 0; the cleared value of `route` is NONE (log entry 12). -/
structure Result where
  status     : Status := .ok
  info       : Info := .none
  rsv        : BitVec 5 := 0
  value      : Nat := 0
  c          : Nat := 0
  values     : List Nat := []
  b          : Byte := 0
  x          : Byte := 0
  legacy     : LegacyFields := {}
  extPresent : Bool := false
  ext        : ExtFields := {}
  seq        : Byte := 0
  id         : FrameId := 0
  plen       : Nat := 0
  payload    : List Byte := []
  route      : Route := none
  len        : Nat := 0
  frame      : List Byte := []
  sel        : Nat := 0
  name       : Nat := 0
  index      : Nat := 0
  deriving DecidableEq, Repr

/-- `S.REG_STATE` (10_state.md R23). Code 3 is never produced, so it is no value here (I10). -/
inductive RegState where
  | building
  | sealed
  | aborted
  deriving DecidableEq, Repr

/-- A registry entry (10_state.md R24). SEL and NAME have parametric widths, so they are naturals whose
bounds are part of the invariant (log entry 13). The default is the entry that reset leaves (R28). -/
structure Entry where
  valid : Bool := false
  id    : FrameId := 0
  sel   : Nat := 0
  name  : Nat := 0
  deriving DecidableEq, Repr

/-- What reaches the block between two steps: a word on the port, or a reset (70_reset_and_hazards.md
R122, R123). -/
inductive PortEvent where
  | present (w : PortWord)
  | reset
  deriving DecidableEq, Repr

/-- The state. The first block is the spec's (10_state.md R14, R18); `cfg`, `port` and `results` are the
model's own (log entries 1, 7, 8). -/
structure State where
  /-- `S.EXT_EN`, bit 0 of CTRL (10_state.md R21). -/
  extEn    : Bool
  /-- `S.REG_STATE` (10_state.md R23). -/
  regState : RegState
  /-- `S.REG_COUNT` (10_state.md R24). -/
  regCount : Nat
  /-- `S.entry[0 .. N_REG-1]` (10_state.md R24). -/
  entries  : List Entry
  /-- `S.DLOG`, oldest first (10_state.md R26). -/
  dlog     : List Delivery
  /-- The request index (10_state.md R18): completed requests since reset. -/
  q        : Nat
  /-- The parameters of 00_scope.md R7; no step writes them. -/
  cfg      : Config
  /-- What is presented from now on, in time order (10_state.md R29). -/
  port     : List PortEvent
  /-- The result records returned so far, oldest first (70_reset_and_hazards.md R131). -/
  results  : List Result
  deriving DecidableEq, Repr

/-- The block stops on no error: every error is a status of a result record, and the block accepts the
next request (60_exceptions.md R110, R117). So no fault has a name (log entry 17), and no step raises
one. -/
inductive Fault where
  deriving DecidableEq, Repr

/-- Why a step declines its input. -/
inductive Refusal where
  /-- Raised by `exec` alone, for an instruction that has no meaning yet. Safe. -/
  | notModelled (mnemonic : String)
  /-- Raised by ENV_DECODE when `len` exceeds MAX_FRAME: the run is refused and no claim holds of it
  (43_envelope_dispatch.md R103, I6, 70_reset_and_hazards.md R131). Safe. -/
  | frameTooLong
  /-- Raised by ENV_ENCODE when the frame would exceed MAX_FRAME (43_envelope_dispatch.md R104, I6).
  Safe. -/
  | encodedFrameTooLong
  /-- Raised by `step` when the bytes on the port spell no request record; how records lie on a bus is
  BUS_PLACEMENT, outside the spec (20_memory.md R42, log entry 5). Safe. -/
  | badRecord (why : DecodeError)
  /-- Raised by `configure` for parameters out of bounds or an EXTRA_DSETS set that is not well-formed:
  the block is never built with it (40_bitfield.md R68, I4, log entry 18). Safe. -/
  | badConfiguration
  deriving DecidableEq, Repr

/-- The block at power-on with the given parameters (10_state.md R28): the legacy format, an empty and
open registry, every entry invalid and zeroed, an empty delivery log, request index 0. -/
def State.powerOn (c : Config) : State :=
  { extEn := false, regState := .building, regCount := 0, entries := List.replicate c.nReg {}, dlog := [],
    q := 0, cfg := c, port := [], results := [] }

/-- The machine right after reset, with the parameters of 95_test_vectors.md (log entry 2). -/
def State.reset : State := State.powerOn Config.testVectors

end Sys2Proof.Machine
end

