-- ==== Sys2Proof/Machine/Operands.lean ====
section
/-! DEFINITION. The byte-buffer accesses, the BitField codec with its descriptor sets
(spec 40_bitfield.md R66 to R73), and the header encoders built on it (41_frame_control.md R81 to R83). -/

namespace Sys2Proof.Machine

/-! ### Byte buffers (00_scope.md R9, 20_memory.md R34 to R40) -/

/-- `MemRead(buf, off, n)`: `n` bytes from `off`, little-endian. No rule reads at or past the buffer's
end (10_state.md R30); there this total function reads 0 (log entry 15). -/
def memRead (buf : List Byte) (off : Nat) : Nat → Nat
  | 0 => 0
  | n + 1 => (buf.getD off 0).toNat + 2 ^ 8 * memRead buf (off + 1) n

/-- Sets one byte of a buffer that is built from offset 0 upward; a buffer that ends before `off` grows
to hold it. -/
def putByte (buf : List Byte) (off : Nat) (b : Byte) : List Byte :=
  if off < buf.length then buf.set off b else buf ++ List.replicate (off - buf.length) 0 ++ [b]

/-- `MemWrite(buf, off, n, v)`: byte `off + j` becomes bits `8*j+7 : 8*j` of `v`, for `j < n`. -/
def memWrite (buf : List Byte) (off : Nat) : Nat → Nat → List Byte
  | 0, _ => buf
  | n + 1, v => memWrite (putByte buf off (BitVec.ofNat 8 v)) (off + 1) n (v >>> 8)

/-- The payload loop of 43_envelope_dispatch.md R104: byte `j` goes to offset `off + j`. -/
def writePayload (buf : List Byte) (off : Nat) : List Byte → List Byte
  | [] => buf
  | p :: ps => writePayload (memWrite buf off 1 p.toNat) (off + 1) ps

/-! ### Descriptor sets (40_bitfield.md R66 to R68) -/

/-- `k(d)`. -/
def fieldCount (d : DescSet) : Nat := d.fields.length

/-- `w_i`, 0 past the last field. -/
def fieldWidth (d : DescSet) (i : Nat) : Nat := (d.fields.map (·.width)).getD i 0

/-- `off_i`: the widths of the fields below field `i` (40_bitfield.md R67). -/
def fieldOffset (d : DescSet) (i : Nat) : Nat := ((d.fields.take i).map (·.width)).sum

/-- The field's own conditions of 40_bitfield.md R68: (a) for its width, (c), (d), and (e) for its
variant names. -/
def fieldWellFormed (f : FieldDesc) : Bool :=
  1 ≤ f.width &&
    match f.enc with
    | .bool => f.width == 1
    | .uint => true
    | .enum vs =>
      vs.length == 2 ^ f.width && vs.all (fun v => v.2 < 2 ^ f.width) && decide (vs.map (·.2)).Nodup
        && decide (vs.map (·.1)).Nodup

/-- A descriptor set is well-formed (40_bitfield.md R68 (a) to (f)). -/
def descSetWellFormed (d : DescSet) : Bool :=
  1 ≤ d.fields.length && d.fields.all fieldWellFormed && (d.fields.map (·.width)).sum == d.bits
    && decide (d.fields.map (·.name)).Nodup && d.bits ≤ valW

/-- The bounds of 00_scope.md R7 on the parameters, with every set of EXTRA_DSETS well-formed. -/
def configWellFormed (c : Config) : Bool :=
  1 ≤ c.nReg && c.nReg ≤ 2 ^ (valW - 2) - 1 && c.wSel ≤ valW && c.wName ≤ valW && 5 ≤ c.maxFrame
    && c.extraDsets.all descSetWellFormed

/-- The variants of CallbackType, with their codes (30_encoding.md R52). -/
def callbackTypeVariants : FieldEnc :=
  .enum [("None", 0), ("Synchronous", 1), ("Asynchronous", 2), ("Reserved", 3)]

/-- The variants of SleepMode (30_encoding.md R52). -/
def sleepModeVariants : FieldEnc :=
  .enum [("Idle", 0), ("DeepSleep", 1), ("PowerDown", 2), ("Reserved", 3)]

/-- The variants of FrameFormatVersion (30_encoding.md R52). -/
def frameFormatVersionVariants : FieldEnc :=
  .enum [("Version0", 0), ("Version1", 1), ("Reserved2", 2), ("Reserved3", 3)]

/-- `LCMD`, descriptor set 0 (30_encoding.md R48, R49). -/
def lcmdSet : DescSet :=
  { name := "LCMD"
    bits := 8
    fields :=
      [{ name := "response_indicator", width := 1, enc := .bool },
       { name := "network_index", width := 2, enc := .uint },
       { name := "callback_type", width := 2, enc := callbackTypeVariants },
       { name := "callback_pending", width := 1, enc := .bool },
       { name := "sleep_mode", width := 2, enc := sleepModeVariants }] }

/-- `LRSP`, descriptor set 1 (30_encoding.md R48, R50). -/
def lrspSet : DescSet :=
  { name := "LRSP"
    bits := 8
    fields :=
      [{ name := "response_indicator", width := 1, enc := .bool },
       { name := "network_index", width := 2, enc := .uint },
       { name := "callback_type", width := 2, enc := callbackTypeVariants },
       { name := "callback_pending", width := 1, enc := .bool },
       { name := "truncated", width := 1, enc := .bool },
       { name := "overflow", width := 1, enc := .bool }] }

/-- `EXT`, descriptor set 2 (30_encoding.md R48, R51). -/
def extSet : DescSet :=
  { name := "EXT"
    bits := 8
    fields :=
      [{ name := "security_enabled", width := 1, enc := .bool },
       { name := "padding_enabled", width := 1, enc := .bool },
       { name := "reserved", width := 4, enc := .uint },
       { name := "frame_format_version", width := 2, enc := frameFormatVersionVariants }] }

/-- The descriptor sets the block instantiates, by index (30_encoding.md R48): `N_DSETS` of them. -/
def descSets (c : Config) : List DescSet := [lcmdSet, lrspSet, extSet] ++ c.extraDsets

/-! ### pack and unpack (40_bitfield.md R69 to R71) -/

/-- The error of a value that does not fit its field: an enumeration's is UnknownEnumValue. -/
def overflowStatus : FieldEnc → Status
  | .bool => .fieldOverflow
  | .uint => .fieldOverflow
  | .enum _ => .unknownEnumValue

/-- The first field, lowest first, whose value does not fit it, with its error; `i` is the index of the
first field of the list. -/
def firstBadField : Nat → List FieldDesc → List Nat → Option (Status × Nat)
  | i, f :: fs, v :: vs => if v < 2 ^ f.width then firstBadField (i + 1) fs vs else some (overflowStatus f.enc, i)
  | _, _, _ => none

/-- The or of `v[i] << off_i`, the lowest field at offset `off`. -/
def packFields : Nat → List FieldDesc → List Nat → Nat
  | off, f :: fs, v :: vs => (v <<< off) ||| packFields (off + f.width) fs vs
  | _, _, _ => 0

/-- The fields of a container, lowest first, the lowest at offset `off` (40_bitfield.md R69). -/
def unpackFields : Nat → List FieldDesc → Nat → List Nat
  | off, f :: fs, c => (c >>> off) % 2 ^ f.width :: unpackFields (off + f.width) fs c
  | _, [], _ => []

/-- `pack(d, v)` (40_bitfield.md R70): the container, or the lowest failing field's error and index. -/
def pack (d : DescSet) (v : List Nat) : Except (Status × Nat) Nat :=
  match firstBadField 0 d.fields v with
  | some e => .error e
  | none => .ok (packFields 0 d.fields v)

/-- `unpack(d, c)` (40_bitfield.md R71), a total function. -/
def unpack (d : DescSet) (c : Nat) : List Nat := unpackFields 0 d.fields c

/-! ### Header encoders (41_frame_control.md R81 to R83) -/

/-- `pack` of one of the 8-bit sets, with a failing field named by its operand (60_exceptions.md R112). -/
def packByte (d : DescSet) (names : List OperandName) (v : List Nat) : Except (Status × OperandName) Byte :=
  match pack d v with
  | .error (st, i) => .error (st, names.getD i .kind)
  | .ok c => .ok (BitVec.ofNat 8 c)

/-- `encode_cmd(ni, ct, cp, sm)` (41_frame_control.md R81): response_indicator is fixed at 0. -/
def encodeCmd (ni ct cp sm : Nat) : Except (Status × OperandName) Byte :=
  packByte lcmdSet [.kind, .networkIndex, .callbackType, .callbackPending, .sleepMode] [0, ni, ct, cp, sm]

/-- `encode_rsp(ni, ct, cp, tr, ov)` (41_frame_control.md R82): response_indicator is fixed at 1. -/
def encodeRsp (ni ct cp tr ov : Nat) : Except (Status × OperandName) Byte :=
  packByte lrspSet [.kind, .networkIndex, .callbackType, .callbackPending, .truncated, .overflow] [1, ni, ct, cp, tr, ov]

/-- `encode_ext(se, pe, rs, ver)` (41_frame_control.md R83): the reserved field as given. -/
def encodeExt (se pe rs ver : Nat) : Except (Status × OperandName) Byte :=
  packByte extSet [.securityEnabled, .paddingEnabled, .reserved, .frameFormatVersion] [se, pe, rs, ver]

end Sys2Proof.Machine
end

