-- ==== Sys2Proof/Machine/Flags.lean ====
section
/-! DEFINITION. The reserved-field flags of a result (spec 41_frame_control.md R76 to R78), and the
numeric codes of statuses and registry states (60_exceptions.md R110, 10_state.md R23). The block keeps no persistent
flags (10_state.md R20). -/

namespace Sys2Proof.Machine

/-- `rsv_legacy(b)` (41_frame_control.md R76). Bit 0 is RSV_CBTYPE, bit 1 RSV_CMD_CBTYPE, bit 2
RSV_SLEEP. -/
def rsvLegacy (b : Byte) : BitVec 3 :=
  let cbType := BitVec.ofBool (b.field 3 2 == 3)
  let cmdCbType := BitVec.ofBool (b.field 0 1 == 0 && b.field 3 2 != 0)
  let sleep := BitVec.ofBool (b.field 0 1 == 0 && b.field 6 2 == 3)
  sleep ++ cmdCbType ++ cbType

/-- `rsv_ext(x)` (41_frame_control.md R77). Bit 0 is RSV_EXT_BITS, bit 1 RSV_VERSION. -/
def rsvExt (x : Byte) : BitVec 2 :=
  let extBits := BitVec.ofBool (x.field 2 4 != 0)
  let version := BitVec.ofBool (decide (2 ≤ (x.field 6 2).toNat))
  version ++ extBits

/-- `res.rsv` (41_frame_control.md R78): the part of a byte the request does not handle is 0. -/
def rsvOf (ext legacy : Option Byte) : BitVec 5 :=
  (match ext with
    | none => 0#2
    | some x => rsvExt x) ++
  (match legacy with
    | none => 0#3
    | some b => rsvLegacy b)

/-- The status codes (60_exceptions.md R110). -/
def Status.code : Status → BitVec 4
  | .ok => 0
  | .fieldOverflow => 1
  | .unknownEnumValue => 2
  | .malformedHeader => 3
  | .unknownFrameId => 4
  | .duplicateFrameId => 5
  | .registryFull => 6
  | .registryLocked => 7
  | .registryAborted => 8
  | .illegalOperation => 9

/-- The codes of `S.REG_STATE` (10_state.md R23). -/
def RegState.code : RegState → BitVec 2
  | .building => 0
  | .sealed => 1
  | .aborted => 2

end Sys2Proof.Machine
end

