-- ==== Sys2Proof/Machine/Ops.lean ====
section
/-! DEFINITION. The shared operations over the state: completing a request, raising an error (which
takes the place of taking an exception, spec 60_exceptions.md R117), delivering, searching the registry,
parsing and formatting an envelope, and reset. -/

namespace Sys2Proof.Machine

/-- What a step of the block answers. -/
abbrev Answer := Host.Outcome State Fault Refusal

/-- The end of every request, whatever its status (10_state.md R19): the result record is returned and
`q` advances. -/
def complete (r : Result) (s : State) : State := { s with q := s.q + 1, results := s.results ++ [r] }

/-- The request completes with the result `r`. -/
def finish (r : Result) (s : State) : Answer := .next (complete r s)

/-- `raise E(info)` (00_scope.md R9): the request ends with status and info, every data field at its
cleared value. It is the block's whole error reporting: nothing is saved, no mode changes and no
control is transferred (60_exceptions.md R117), and nothing needs a return (R118). -/
def raise (st : Status) (info : Info) (s : State) : Answer := finish { status := st, info := info } s

/-- `raise` of an operand's error. -/
def raiseOperand (e : Status × OperandName) (s : State) : Answer := raise e.1 (.operand e.2) s

/-- `deliver(port, rec)` (00_scope.md R9, 10_state.md R26); the route NONE delivers nothing. -/
def deliver (route : Route) (p : DeliveryRecord) (s : State) : State :=
  match route with
  | none => s
  | some port => { s with dlog := s.dlog ++ [{ port := port, record := p }] }

/-! ### Registry (42_registry.md) -/

/-- `find(id)` (42_registry.md R92): an index below REG_COUNT whose entry is valid and has this ID. At
most one such index exists in the states of 10_state.md R25(c); elsewhere this is the lowest (log
entry 14). -/
def find (id : FrameId) (s : State) : Option Nat :=
  (s.entries.take s.regCount).findIdx? (fun e => e.valid && e.id == id)

/-- `S.entry[i]`; an index past the table's end reads as the entry that reset leaves. -/
def entryAt (i : Nat) (s : State) : Entry := s.entries.getD i {}

/-- `dispatch(id)` (43_envelope_dispatch.md R102): a status and a route. -/
def dispatch (id : FrameId) (s : State) : Status × Route :=
  match s.regState with
  | .aborted => (.registryAborted, none)
  | _ =>
    match find id s with
    | none => (.unknownFrameId, some .unknown)
    | some i => (.ok, some (.codec (entryAt i s).sel))

/-! ### Envelope (30_encoding.md R55 to R57) -/

/-- The header length `H = 4 + S.EXT_EN` (30_encoding.md R56). -/
def headerLen (e : Bool) : Nat := 4 + e.toNat

/-- `parse_envelope(frame, L, e)` (43_envelope_dispatch.md R101); `none` is MALFORMED. The identifier is read
at offset `2 + e` (30_encoding.md R55, R57), byte by byte and whatever the offset's parity (20_memory.md
R40; its own numbers for this offset give way to R55's table by 90_conflicts.md, log entry 19). -/
def parseEnvelope (frame : List Byte) (len : Nat) (e : Bool) : Option DeliveryRecord :=
  if len < headerLen e then none
  else
    let legacyByte : Byte := BitVec.ofNat 8 (memRead frame 1 1)
    let extByte : Byte := BitVec.ofNat 8 (memRead frame 2 1)
    some
      { seq := BitVec.ofNat 8 (memRead frame 0 1)
        legacy := decodeLegacy legacyByte
        extPresent := e
        ext := if e then decodeExt extByte else {}
        id := BitVec.ofNat 16 (memRead frame (2 + e.toNat) 2)
        plen := len - headerLen e
        payload := (frame.take len).drop (headerLen e)
        rsv := rsvOf (if e then some extByte else none) (some legacyByte) }

/-- The legacy control byte of ENV_ENCODE (43_envelope_dispatch.md R104): the view that `kind` names; the
other view's operands are not read (D31). -/
def encodeLegacy (o : EnvelopeOperands) : Except (Status × OperandName) Byte :=
  if o.kind = 0 then encodeCmd o.networkIndex o.callbackType o.callbackPending o.sleepMode
  else encodeRsp o.networkIndex o.callbackType o.callbackPending o.truncated o.overflow

/-- The extended control byte of ENV_ENCODE, when the format has one; in the legacy format its operands
are not read (D31). -/
def encodeExtended (e : Bool) (o : EnvelopeOperands) : Except (Status × OperandName) (Option Byte) :=
  if e then
    match encodeExt o.securityEnabled o.paddingEnabled o.reserved o.frameFormatVersion with
    | .error er => .error er
    | .ok x => .ok (some x)
  else .ok none

/-- The checks of ENV_ENCODE on its lanes, in order, and the control bytes they give
(43_envelope_dispatch.md R104). -/
def encodeHeader (e : Bool) (o : EnvelopeOperands) : Except (Status × OperandName) (Byte × Option Byte) :=
  if 2 ^ 8 ≤ o.seq then .error (.fieldOverflow, .seq)
  else if 2 ≤ o.kind then .error (.fieldOverflow, .kind)
  else
    match encodeLegacy o with
    | .error er => .error er
    | .ok b =>
      match encodeExtended e o with
      | .error er => .error er
      | .ok x => if 2 ^ 16 ≤ o.id then .error (.fieldOverflow, .id) else .ok (b, x)

/-- The bytes ENV_ENCODE writes (43_envelope_dispatch.md R104), the extended byte only when there is one;
the identifier goes to offset `2 + e` (30_encoding.md R57; log entry 19). -/
def formatEnvelope (seq : Nat) (b : Byte) (x : Option Byte) (id : Nat) (payload : List Byte) : List Byte :=
  let f := memWrite [] 0 1 seq
  let f := memWrite f 1 1 b.toNat
  match x with
  | none => writePayload (memWrite f 2 2 id) 4 payload
  | some x => writePayload (memWrite (memWrite f 2 1 x.toNat) 3 2 id) 5 payload

/-- The result of reading one legacy control byte: FC_DEC's (41_frame_control.md R86). -/
def readLegacyByte (b : Byte) (s : State) : Answer :=
  finish { legacy := decodeLegacy b, rsv := rsvOf none (some b) } s

/-- The result of reading one extended control byte: FC_DEC_EXT's (41_frame_control.md R88). -/
def readExtByte (x : Byte) (s : State) : Answer :=
  finish { ext := decodeExt x, rsv := rsvOf (some x) none } s

/-! ### Reset and configuration -/

/-- Reset (70_reset_and_hazards.md R122): every piece of block state at its reset value; DLOG, the
results returned so far, the parameters and what is presented next stay (log entries 7, 8). -/
def takeReset (s : State) : State :=
  { State.powerOn s.cfg with dlog := s.dlog, port := s.port, results := s.results }

/-- Building the block with parameters (40_bitfield.md R68, I4; log entry 18): a parameter set that is not
well-formed is refused. -/
def configure (c : Config) : Except Refusal State :=
  if configWellFormed c then .ok (State.powerOn c) else .error .badConfiguration

end Sys2Proof.Machine
end

