-- ==== Sys2Proof/Machine/BitField.lean ====
section
/-! DEFINITION. BF_PACK and BF_UNPACK (spec 40_bitfield.md R74, R75). -/

namespace Sys2Proof.Machine

/-- BF_PACK (40_bitfield.md R74). -/
def execBfPack (dset : Nat) (values : List Nat) (s : State) : Answer :=
  if 2 ^ 8 ≤ dset then raise .fieldOverflow (.operand .dset) s
  else
    match (descSets s.cfg)[dset]? with
    | none => raise .illegalOperation (.operand .dset) s
    | some d =>
      if values.length ≠ fieldCount d then raise .illegalOperation (.operand .values) s
      else
        match pack d values with
        | .error (st, i) => raise st (.field i) s
        | .ok c => finish { c := c } s

/-- BF_UNPACK (40_bitfield.md R75). -/
def execBfUnpack (dset c : Nat) (s : State) : Answer :=
  if 2 ^ 8 ≤ dset then raise .fieldOverflow (.operand .dset) s
  else
    match (descSets s.cfg)[dset]? with
    | none => raise .illegalOperation (.operand .dset) s
    | some d =>
      if 2 ^ d.bits ≤ c then raise .fieldOverflow (.operand .c) s
      else finish { values := unpack d c } s

end Sys2Proof.Machine
end

