-- ==== Sys2Proof/Machine/Configuration.lean ====
section
/-! DEFINITION. CFG_WRITE, CFG_READ and the undefined operation codes (spec 44_config.md). -/

namespace Sys2Proof.Machine

/-- CFG_WRITE (44_config.md R107): index 0x00 is CTRL, whose only writable bit is EXT_EN; REG_STATUS
(0x01) is read-only and every other index is undefined. -/
def execCfgWrite (reg value : Nat) (s : State) : Answer :=
  if 2 ^ 8 ≤ reg then raise .fieldOverflow (.operand .reg) s
  else if reg = 0x00 then
    if 2 ≤ value then raise .fieldOverflow (.operand .value) s
    else finish {} { s with extEn := value == 1 }
  else raise .illegalOperation (.operand .reg) s

/-- CFG_READ (44_config.md R108), of CTRL (10_state.md R21) and of REG_STATUS (R22). -/
def execCfgRead (reg : Nat) (s : State) : Answer :=
  if 2 ^ 8 ≤ reg then raise .fieldOverflow (.operand .reg) s
  else if reg = 0x00 then finish { value := s.extEn.toNat } s
  else if reg = 0x01 then finish { value := (s.regCount <<< 2) ||| s.regState.code.toNat } s
  else raise .illegalOperation (.operand .reg) s

/-- An undefined operation code (44_config.md R109): IllegalOperation(op), and the block goes on. -/
def execIllegal (_op : Byte) (s : State) : Answer := raise .illegalOperation (.operand .op) s

end Sys2Proof.Machine
end

