-- ==== Sys2Proof/Machine/Envelope.lean ====
section
/-! DEFINITION. ENV_ENCODE, and ENV_DECODE with the frame-ID dispatch demultiplexer (spec
43_envelope_dispatch.md R103, R104). -/

namespace Sys2Proof.Machine

/-- ENV_ENCODE (43_envelope_dispatch.md R104). A missing payload is a wrong record shape (D24), checked
with the shapes before the lanes (60_exceptions.md R114, log entry 9). -/
def execEnvEncode (o : EnvelopeOperands) (payload : Option (List Byte)) (s : State) : Answer :=
  match payload with
  | none => raise .illegalOperation (.operand .payload) s
  | some bytes =>
    match encodeHeader s.extEn o with
    | .error e => raiseOperand e s
    | .ok (b, x) =>
      if s.cfg.maxFrame < headerLen s.extEn + bytes.length then .refused .encodedFrameTooLong
      else
        finish
          { len := headerLen s.extEn + bytes.length
            frame := formatEnvelope o.seq b x o.id bytes
            rsv := rsvOf x (some b) } s

/-- The result record of a parsed frame (43_envelope_dispatch.md R103). -/
def decodeResult (p : DeliveryRecord) (st : Status) (route : Route) : Result :=
  { status := st
    info := if st = .unknownFrameId then .operand .id else .none
    rsv := p.rsv
    seq := p.seq
    legacy := p.legacy
    extPresent := p.extPresent
    ext := p.ext
    id := p.id
    plen := p.plen
    payload := p.payload
    route := route }

/-- ENV_DECODE (43_envelope_dispatch.md R103). The refusal comes before every check (60_exceptions.md
R114), then the record's shape: a missing buffer (D24, log entry 9), then its length. -/
def execEnvDecode (len : Nat) (frame : Option (List Byte)) (s : State) : Answer :=
  if s.cfg.maxFrame < len then .refused .frameTooLong
  else
    match frame with
    | none => raise .illegalOperation (.operand .frame) s
    | some bytes =>
      if len ≠ bytes.length then raise .illegalOperation (.operand .len) s
      else
        match parseEnvelope bytes len s.extEn with
        | none => raise .malformedHeader (.operand .len) s
        | some p =>
          finish (decodeResult p (dispatch p.id s).1 (dispatch p.id s).2) (deliver (dispatch p.id s).2 p s)

end Sys2Proof.Machine
end

