-- ==== Sys2Proof/Machine/FrameControl.lean ====
section
/-! DEFINITION. The frame-control header operations (spec 41_frame_control.md R84 to R88). -/

namespace Sys2Proof.Machine

/-- FC_ENC_CMD (41_frame_control.md R84). -/
def execFcEncCmd (networkIndex callbackType callbackPending sleepMode : Nat) (s : State) : Answer :=
  match encodeCmd networkIndex callbackType callbackPending sleepMode with
  | .error e => raiseOperand e s
  | .ok b => finish { b := b, rsv := rsvOf none (some b) } s

/-- FC_ENC_RSP (41_frame_control.md R85). -/
def execFcEncRsp (networkIndex callbackType callbackPending truncated overflow : Nat) (s : State) : Answer :=
  match encodeRsp networkIndex callbackType callbackPending truncated overflow with
  | .error e => raiseOperand e s
  | .ok b => finish { b := b, rsv := rsvOf none (some b) } s

/-- FC_DEC (41_frame_control.md R86). -/
def execFcDec (b : Nat) (s : State) : Answer :=
  if 2 ^ 8 ≤ b then raise .fieldOverflow (.operand .b) s else readLegacyByte (BitVec.ofNat 8 b) s

/-- FC_ENC_EXT (41_frame_control.md R87). -/
def execFcEncExt (securityEnabled paddingEnabled reserved frameFormatVersion : Nat) (s : State) : Answer :=
  match encodeExt securityEnabled paddingEnabled reserved frameFormatVersion with
  | .error e => raiseOperand e s
  | .ok x => finish { x := x, rsv := rsvOf (some x) none } s

/-- FC_DEC_EXT (41_frame_control.md R88); it does not read EXT_EN. -/
def execFcDecExt (x : Nat) (s : State) : Answer :=
  if 2 ^ 8 ≤ x then raise .fieldOverflow (.operand .x) s else readExtByte (BitVec.ofNat 8 x) s

end Sys2Proof.Machine
end

