-- ==== Sys2Proof/Machine/Registry.lean ====
section
/-! DEFINITION. The frame identity registry operations (spec 42_registry.md R93 to R96). -/

namespace Sys2Proof.Machine

/-- REG_REGISTER once its lanes are in range (42_registry.md R93): check and insert in one step
(20_memory.md R45). A duplicate leaves the table unchanged and aborts construction. -/
def registerEntry (id : FrameId) (sel name : Nat) (s : State) : Answer :=
  match s.regState with
  | .sealed => raise .registryLocked .none s
  | .aborted => raise .registryAborted .none s
  | .building =>
    if (find id s).isSome then raise .duplicateFrameId (.operand .id) { s with regState := .aborted }
    else if s.regCount = s.cfg.nReg then raise .registryFull .none s
    else
      finish { index := s.regCount }
        { s with
          entries := s.entries.set s.regCount { valid := true, id := id, sel := sel, name := name }
          regCount := s.regCount + 1 }

/-- REG_REGISTER (42_registry.md R93): the lanes in order, then the registry. -/
def execRegRegister (id sel name : Nat) (s : State) : Answer :=
  if 2 ^ 16 ≤ id then raise .fieldOverflow (.operand .id) s
  else if 2 ^ s.cfg.wSel ≤ sel then raise .fieldOverflow (.operand .sel) s
  else if 2 ^ s.cfg.wName ≤ name then raise .fieldOverflow (.operand .name) s
  else registerEntry (BitVec.ofNat 16 id) sel name s

/-- REG_LOOKUP (42_registry.md R94). -/
def execRegLookup (id : Nat) (s : State) : Answer :=
  if 2 ^ 16 ≤ id then raise .fieldOverflow (.operand .id) s
  else
    match s.regState with
    | .aborted => raise .registryAborted .none s
    | _ =>
      match find (BitVec.ofNat 16 id) s with
      | none => raise .unknownFrameId (.operand .id) s
      | some i => finish { sel := (entryAt i s).sel, name := (entryAt i s).name, index := i } s

/-- REG_SEAL (42_registry.md R95). -/
def execRegSeal (s : State) : Answer :=
  match s.regState with
  | .aborted => raise .registryAborted .none s
  | _ => finish {} { s with regState := .sealed }

/-- REG_CLEAR (42_registry.md R96): it succeeds in every state. -/
def execRegClear (s : State) : Answer :=
  finish {} { s with entries := List.replicate s.cfg.nReg {}, regCount := 0, regState := .building }

end Sys2Proof.Machine
end

