-- ==== Sys2Proof/Machine/Wire.lean ====
section
/-! DEFINITION. The three wire-format rows of the opcode table (spec 30_encoding.md R49 to R51). A control
byte is data and not a request; its meaning is its decoding, so presenting one answers what FC_DEC or
FC_DEC_EXT answers for it (log entry 10). -/

namespace Sys2Proof.Machine

/-- W_LCMD: the reading of a legacy control byte in the command view (41_frame_control.md R79). -/
def execWLcmd (networkIndex : BitVec 2) (callbackType : CallbackType) (callbackPending : Bool)
    (sleepMode : SleepMode) (s : State) : Answer :=
  readLegacyByte (lcmdByte networkIndex callbackType callbackPending sleepMode) s

/-- W_LRSP: the reading of a legacy control byte in the response view (41_frame_control.md R79). -/
def execWLrsp (networkIndex : BitVec 2) (callbackType : CallbackType) (callbackPending truncated overflow : Bool)
    (s : State) : Answer :=
  readLegacyByte (lrspByte networkIndex callbackType callbackPending truncated overflow) s

/-- W_EXT: the reading of an extended control byte (41_frame_control.md R80). -/
def execWExt (securityEnabled paddingEnabled : Bool) (reserved : BitVec 4)
    (frameFormatVersion : FrameFormatVersion) (s : State) : Answer :=
  readExtByte (extByteOf securityEnabled paddingEnabled reserved frameFormatVersion) s

end Sys2Proof.Machine
end

