-- ==== Sys2Proof/Machine/Dispatch.lean ====
section
/-! DEFINITION. One arm per row of the opcode table. -/

namespace Sys2Proof.Machine

def exec (i : Instr) (s : State) : Host.Outcome State Fault Refusal :=
  match i with
  | .cfgWrite reg value => Sys2Proof.Machine.execCfgWrite reg value s
  | .cfgRead reg => Sys2Proof.Machine.execCfgRead reg s
  | .bfPack dset values => Sys2Proof.Machine.execBfPack dset values s
  | .bfUnpack dset c => Sys2Proof.Machine.execBfUnpack dset c s
  | .fcEncCmd ni ct cp sm => Sys2Proof.Machine.execFcEncCmd ni ct cp sm s
  | .fcEncRsp ni ct cp tr ov => Sys2Proof.Machine.execFcEncRsp ni ct cp tr ov s
  | .fcDec b => Sys2Proof.Machine.execFcDec b s
  | .fcEncExt se pe rs ver => Sys2Proof.Machine.execFcEncExt se pe rs ver s
  | .fcDecExt x => Sys2Proof.Machine.execFcDecExt x s
  | .envEncode o payload => Sys2Proof.Machine.execEnvEncode o payload s
  | .envDecode len frame => Sys2Proof.Machine.execEnvDecode len frame s
  | .regRegister id sel name => Sys2Proof.Machine.execRegRegister id sel name s
  | .regLookup id => Sys2Proof.Machine.execRegLookup id s
  | .regSeal => Sys2Proof.Machine.execRegSeal s
  | .regClear => Sys2Proof.Machine.execRegClear s
  | .illegal op => Sys2Proof.Machine.execIllegal op s
  | .wLcmd ni ct cp sm => Sys2Proof.Machine.execWLcmd ni ct cp sm s
  | .wLrsp ni ct cp tr ov => Sys2Proof.Machine.execWLrsp ni ct cp tr ov s
  | .wExt se pe rs ver => Sys2Proof.Machine.execWExt se pe rs ver s

end Sys2Proof.Machine
end

