-- ==== Sys2Proof/Machine/Step.lean ====
section
/-! DEFINITION. One step of the block: it serves the next event of the port (spec 10_state.md R18, R19,
70_reset_and_hazards.md R123). There is no program counter; what is presented next is the program. -/

namespace Sys2Proof.Machine

/-- One step. With nothing presented the block does nothing (log entry 7). A reset counts no request and
returns no result (70_reset_and_hazards.md R122, R123). -/
def step (s : State) : Host.Outcome State Fault Refusal :=
  match s.port with
  | [] => .next s
  | .reset :: rest => .next (takeReset { s with port := rest })
  | .present w :: rest =>
    match decode w with
    | .error e => .refused (.badRecord e)
    | .ok i => exec i { s with port := rest }

/-- `s` with the opcode table's word presented next (log entry 7). -/
def State.withFetchWord (s : State) (nbits w : Nat) : State :=
  { s with port := .present (tableWord nbits w) :: s.port }

end Sys2Proof.Machine
end

