-- ==== Sys2Proof/Safety.lean ====
section
/-! DEFINITION. The terms that claims about the block are stated in: the registry invariants of
10_state.md R25, the block's own state apart from its history, a run's observation, states that differ
in diagnostic names only, and what it is for an instruction to complete with one result. -/

namespace Sys2Proof.Machine

/-- The entry at index `i` is registered: below REG_COUNT and valid (42_registry.md R92). -/
abbrev State.HoldsAt (s : State) (i : Nat) (id : FrameId) : Prop :=
  i < s.regCount ∧ (entryAt i s).valid = true ∧ (entryAt i s).id = id

/-- `id` is in the registry. -/
abbrev State.Registered (s : State) (id : FrameId) : Prop := ∃ i, s.HoldsAt i id

/-- A delivered event is one that 10_state.md R26 and 43_envelope_dispatch.md R100 allow: a codec port that exists, as
many payload bytes as `plen` says, the extended fields 0 in the legacy format, and a frame within
MAX_FRAME. -/
abbrev Delivery.Allowed (c : Config) (d : Delivery) : Prop :=
  (match d.port with
    | .codec k => k < 2 ^ c.wSel
    | .unknown => True) ∧
  d.record.plen = d.record.payload.length ∧
  (d.record.extPresent = false → d.record.ext = {}) ∧
  headerLen d.record.extPresent + d.record.plen ≤ c.maxFrame

/-- The invariant of the machine: 10_state.md R25 (a) to (c), the entry widths of R24, D32 for the invalid
entries, 00_scope.md R7 for the parameters, and R26 for the log. -/
structure State.Inv (s : State) : Prop where
  /-- The parameters are within their bounds, every descriptor set well-formed (R7, R68). -/
  config : configWellFormed s.cfg = true
  /-- The table has N_REG entries (R24). -/
  table : s.entries.length = s.cfg.nReg
  /-- R25 (b). -/
  count : s.regCount ≤ s.cfg.nReg
  /-- R25 (a). -/
  valid : ∀ i < s.cfg.nReg, ((entryAt i s).valid = true ↔ i < s.regCount)
  /-- R25 (c). -/
  unique : ∀ i < s.cfg.nReg, ∀ j < s.cfg.nReg, (entryAt i s).valid = true → (entryAt j s).valid = true →
    (entryAt i s).id = (entryAt j s).id → i = j
  /-- R24: SEL and NAME fit their widths. -/
  widths : ∀ e ∈ s.entries, e.sel < 2 ^ s.cfg.wSel ∧ e.name < 2 ^ s.cfg.wName
  /-- D32: an invalid entry is zeroed. -/
  zeroed : ∀ e ∈ s.entries, e.valid = false → e = {}
  /-- R26: every delivered event is allowed. -/
  log : ∀ d ∈ s.dlog, d.Allowed s.cfg

/-- The block's state apart from its output history `S.DLOG` (10_state.md R14). -/
structure BlockState where
  extEn    : Bool
  regState : RegState
  regCount : Nat
  entries  : List Entry
  deriving DecidableEq, Repr

/-- The block state of a state. -/
def State.block (s : State) : BlockState :=
  { extEn := s.extEn, regState := s.regState, regCount := s.regCount, entries := s.entries }

/-- What is observed of a run (70_reset_and_hazards.md R131). -/
structure Observation where
  results : List Result
  block   : BlockState
  dlog    : List Delivery
  deriving DecidableEq, Repr

/-- The observation at the end of a run. -/
def State.observe (s : State) : Observation :=
  { results := s.results, block := s.block, dlog := s.dlog }

/-- Requests one after another (10_state.md R19), up to the first that is refused. -/
def execAll : List Instr → State → Answer
  | [], s => .next s
  | i :: is, s =>
    match exec i s with
    | .next t => execAll is t
    | .fault f => .fault f
    | .refused r => .refused r

/-- A safe run: none of its `k` steps is refused, so claims hold of it (70_reset_and_hazards.md R131). -/
def SafeRun (k : Nat) (s : State) : Prop := ∃ t, Sys2Proof.core.run k s = .next t

/-- The instruction completes with the result `r`; the request index advances and nothing else changes
(10_state.md R19). -/
abbrev CompletesWith (i : Instr) (s : State) (r : Result) : Prop :=
  exec i s = .next { s with q := s.q + 1, results := s.results ++ [r] }

/-- A state with the NAME of every entry and every returned `name` blanked (42_registry.md R97). -/
def State.eraseNames (s : State) : State :=
  { s with
    entries := s.entries.map (fun e => { e with name := 0 })
    results := s.results.map (fun r => { r with name := 0 }) }

/-- An answer with its names blanked. -/
def eraseAnswerNames (a : Answer) : Answer :=
  match a with
  | .next t => .next t.eraseNames
  | .fault f => .fault f
  | .refused r => .refused r

end Sys2Proof.Machine
end

