-- ==== Sys2Proof/Certificates/Slice0/Obligations.lean ====
section
/-! DEFINITION. The statements for the provers. Rules R<n> are those of spec/; "log entry <n>" marks a
choice of the model's (notes/assumptions/<n>.md). -/

open Sys2Proof Sys2Proof.Machine

/-! ## Words -/

/-- A few words written out from the spec's encodings: the control bytes 0x04, 0xB3, 0xFF and 0x41 as R49
to R51 lay them out (vectors W1, W5, FC15 and EX8 of 95_test_vectors.md), and records of the op codes 0x0E
and 0x0F, which have no operand, and 0x07 and 0x0D with one lane (R60). The place of a record's op code
and operands is the model's (log entry 3). -/
def Obligations.WordsOfTheSpecDecode : Prop :=
  decode (.legacyByte 0b00000100#8) = .ok (.wLcmd 2 .none false .idle) ∧
  decode (.legacyByte 0b10110011#8) = .ok (.wLrsp 1 .asynchronous true false true) ∧
  decode (.legacyByte 0b11111111#8) = .ok (.wLrsp 3 .reserved true true true) ∧
  decode (.extByte 0b01000001#8) = .ok (.wExt true false 0 .version1) ∧
  decode (.request [0x0E]) = .ok .regSeal ∧
  decode (.request [0x0F]) = .ok .regClear ∧
  decode (.request [0x07, 0xFF, 0, 0, 0]) = .ok (.fcDec 0xFF) ∧
  decode (.request [0x0D, 0x34, 0x12, 0, 0]) = .ok (.regLookup 0x1234)

/-- Decoding the word of a well-formed instruction gives it back, with every operand at every value its
word admits. The layout of the control bytes is R49 to R51's; that of a request's operands is the
model's (log entries 3, 4). -/
def Obligations.DecodeOfEncodeIsTheInstruction : Prop :=
  ∀ i : Instr, i.wf = true → decode (encode i) = .ok i

/-- R60's map of the operation codes, and R61: the op code alone says which operation a record that
decodes asks for. That the op code is the record's first byte is the model's (log entry 3). -/
def Obligations.OperationCodes : Prop :=
  ∀ (op : Byte) (bytes : List Byte) (i : Instr), decode (.request (op :: bytes)) = .ok i →
    (op = 0x01 ↔ ∃ reg value, i = .cfgWrite reg value) ∧
    (op = 0x02 ↔ ∃ reg, i = .cfgRead reg) ∧
    (op = 0x03 ↔ ∃ dset values, i = .bfPack dset values) ∧
    (op = 0x04 ↔ ∃ dset c, i = .bfUnpack dset c) ∧
    (op = 0x05 ↔ ∃ ni ct cp sm, i = .fcEncCmd ni ct cp sm) ∧
    (op = 0x06 ↔ ∃ ni ct cp tr ov, i = .fcEncRsp ni ct cp tr ov) ∧
    (op = 0x07 ↔ ∃ b, i = .fcDec b) ∧
    (op = 0x08 ↔ ∃ se pe rs ver, i = .fcEncExt se pe rs ver) ∧
    (op = 0x09 ↔ ∃ x, i = .fcDecExt x) ∧
    (op = 0x0A ↔ ∃ o payload, i = .envEncode o payload) ∧
    (op = 0x0B ↔ ∃ len frame, i = .envDecode len frame) ∧
    (op = 0x0C ↔ ∃ id sel name, i = .regRegister id sel name) ∧
    (op = 0x0D ↔ ∃ id, i = .regLookup id) ∧
    (op = 0x0E ↔ i = .regSeal) ∧
    (op = 0x0F ↔ i = .regClear) ∧
    (op = 0x00 ∨ 0x10 ≤ op.toNat ↔ i = .illegal op)

/-- R9, R38 and R40: an access moves the bytes at its offsets, least significant first, at every offset of
either parity, and a write leaves every other byte. The identifier of a parsed and of a formatted
envelope is the two bytes at offset `2 + e`, where R55 and R57 put it; that this stands against R40's own
numbers is 90_conflicts.md's order of precedence (log entry 19). -/
def Obligations.BufferAccessesAreByteGranular : Prop :=
  (∀ (buf : List Byte) (off n : Nat), off + n ≤ buf.length →
    memRead buf off n = ∑ j ∈ Finset.range n, (buf.getD (off + j) 0).toNat * 2 ^ (8 * j)) ∧
  (∀ (buf : List Byte) (off n v : Nat), off ≤ buf.length →
    (memWrite buf off n v).length = max buf.length (off + n) ∧
    (∀ j < n, (memWrite buf off n v).getD (off + j) 0 = BitVec.ofNat 8 (v / 2 ^ (8 * j))) ∧
    (∀ k, k < off ∨ off + n ≤ k → (memWrite buf off n v).getD k 0 = buf.getD k 0) ∧
    memRead (memWrite buf off n v) off n = v % 2 ^ (8 * n)) ∧
  (∀ (frame : List Byte) (e : Bool) (p : DeliveryRecord), parseEnvelope frame frame.length e = some p →
    p.id = frame.getD (3 + e.toNat) 0 ++ frame.getD (2 + e.toNat) 0) ∧
  (∀ (seq id : Nat) (b : Byte) (x : Option Byte) (payload : List Byte),
    (formatEnvelope seq b x id payload).getD (2 + x.isSome.toNat) 0 = BitVec.ofNat 8 id ∧
    (formatEnvelope seq b x id payload).getD (3 + x.isSome.toNat) 0 = BitVec.ofNat 8 (id / 256))

/-- Each of the 256 legacy bytes is read in the view its bit 0 selects and is the word of what it decodes
to; each of the 256 extended bytes is the word of what it decodes to (R53, R89 (d), (e)). -/
def Obligations.EveryControlByteIsTheWordOfItsReading : Prop :=
  (∀ b : Byte, ∃ i, decode (.legacyByte b) = .ok i ∧ encode i = .legacyByte b ∧
    (b.toNat % 2 = 0 → ∃ ni ct cp sm, i = .wLcmd ni ct cp sm) ∧
    (b.toNat % 2 = 1 → ∃ ni ct cp tr ov, i = .wLrsp ni ct cp tr ov)) ∧
  (∀ x : Byte, ∃ i, decode (.extByte x) = .ok i ∧ encode i = .extByte x)

/-- R54: the 16-bit control word has the legacy byte in bits 7:0 and the extended byte in bits 15:8, so
security_enabled is bit 8, padding_enabled bit 9, reserved bits 13:10 and frame_format_version bits
15:14; the two bytes of an envelope in the extended format, read little-endian at offset 1, are it. -/
def Obligations.ControlWordLayout : Prop :=
  ∀ (ext legacy : Byte) (sq : Byte) (rest : List Byte),
    (controlWord ext legacy).extractLsb' 0 8 = legacy ∧
    (controlWord ext legacy).extractLsb' 8 8 = ext ∧
    (controlWord ext legacy).getLsbD 8 = (decodeExt ext).securityEnabled ∧
    (controlWord ext legacy).getLsbD 9 = (decodeExt ext).paddingEnabled ∧
    (controlWord ext legacy).extractLsb' 10 4 = (decodeExt ext).reserved ∧
    (controlWord ext legacy).extractLsb' 14 2 = (decodeExt ext).frameFormatVersion.code ∧
    memRead (sq :: legacy :: ext :: rest) 1 2 = (controlWord ext legacy).toNat

/-! ## Steps, reset and the whole machine -/

/-- When the word on the port decodes to an instruction, the step is that instruction's meaning at the
state from which the word has been taken. That the port is a list of words is the model's (log entry
7). -/
def Obligations.StepRunsTheDecodedInstruction : Prop :=
  ∀ (s : State) (w : PortWord) (rest : List PortEvent) (i : Instr),
    s.port = .present w :: rest → decode w = .ok i → step s = exec i { s with port := rest }

/-- The model's choice for what is no request (log entries 5, 7): with nothing presented nothing
changes, and a word that decodes to no instruction is refused by name. -/
def Obligations.StepWithoutARequest : Prop :=
  (∀ s : State, s.port = [] → step s = .next s) ∧
  (∀ (s : State) (w : PortWord) (rest : List PortEvent) (e : DecodeError),
    s.port = .present w :: rest → decode w = .error e → step s = .refused (.badRecord e))

/-- R122: what reset sets and what it leaves. -/
def Obligations.ResetSetsTheBlock : Prop :=
  ∀ s : State,
    (takeReset s).extEn = false ∧ (takeReset s).regState = .building ∧ (takeReset s).regCount = 0 ∧
    (takeReset s).entries.length = s.cfg.nReg ∧
    (∀ e ∈ (takeReset s).entries, e.valid = false ∧ e.id = 0 ∧ e.sel = 0 ∧ e.name = 0) ∧
    (takeReset s).dlog = s.dlog ∧ (takeReset s).q = 0

/-- The model's choices about a reset (log entries 1, 7, 8): it is an event of the port that takes one
step, returns no result and counts no request; parameters, later events and the results returned before
it stay. A lookup after it finds nothing (R123, R124). -/
def Obligations.ResetIsAStepOfItsOwn : Prop :=
  ∀ (s : State) (rest : List PortEvent), s.port = .reset :: rest →
    ∃ t, step s = .next t ∧ t = takeReset { s with port := rest } ∧
      t.cfg = s.cfg ∧ t.port = rest ∧ t.results = s.results ∧
      ∀ id < 2 ^ 16, CompletesWith (.regLookup id) t { status := .unknownFrameId, info := .operand .id }

/-- R124 and R28: at power-on, whatever the parameters, the codec works, envelopes have the legacy
format, and every lookup and every dispatch answers UnknownFrameId. -/
def Obligations.StateJustAfterPowerOn : Prop :=
  ∀ c : Config,
    let s := State.powerOn c
    s.extEn = false ∧ s.regState = .building ∧ s.regCount = 0 ∧ s.dlog = [] ∧ s.q = 0 ∧
    s.entries.length = c.nReg ∧ (∀ e ∈ s.entries, e = {}) ∧
    (∀ id < 2 ^ 16, CompletesWith (.regLookup id) s { status := .unknownFrameId, info := .operand .id }) ∧
    (∀ id : FrameId, dispatch id s = (.unknownFrameId, some .unknown)) ∧
    CompletesWith (.cfgRead 0) s { value := 0 } ∧ CompletesWith (.cfgRead 1) s { value := 0 }

/-- R19 and R29: a request that is not refused returns exactly one result record and advances `q` by one,
whatever its status; parameters and the later events stay. -/
def Obligations.EveryRequestReturnsOneResult : Prop :=
  ∀ (i : Instr) (s t : State), exec i s = .next t →
    t.q = s.q + 1 ∧ (∃ r, t.results = s.results ++ [r]) ∧ t.cfg = s.cfg ∧ t.port = s.port

/-- R32 with I6: every request has a defined result, but a frame longer than MAX_FRAME, received or to be
sent, which is refused; nothing faults. -/
def Obligations.OnlyLongFramesAreRefused : Prop :=
  ∀ (i : Instr) (s : State),
    (∃ t, exec i s = .next t) ∨
    (∃ len frame, i = .envDecode len frame ∧ s.cfg.maxFrame < len ∧ exec i s = .refused .frameTooLong) ∨
    (∃ o payload, i = .envEncode o (some payload) ∧ s.cfg.maxFrame < headerLen s.extEn + payload.length ∧
      exec i s = .refused .encodedFrameTooLong)

/-- R25 (a) to (c), and the other parts of `State.Inv`, are kept by every step from every state that
meets them. -/
def Obligations.EveryStepKeepsTheInvariant : Prop :=
  ∀ s t : State, s.Inv → step s = .next t → t.Inv

/-- Every block built with well-formed parameters starts in the invariant, State.reset among them; a
configuration that is not well-formed is refused (I4). State.reset's parameters are the model's choice
(log entry 2). -/
def Obligations.PowerOnMeetsTheInvariant : Prop :=
  (∀ c : Config, configWellFormed c = true → configure c = .ok (State.powerOn c) ∧ (State.powerOn c).Inv) ∧
  (∀ c : Config, configWellFormed c = false → configure c = .error .badConfiguration) ∧
  State.reset.Inv

/-- R23's transitions, exactly: REG_STATE after any instruction that answers a next state. -/
def Obligations.RegStateTransitions : Prop :=
  (∀ (i : Instr) (s t : State), exec i s = .next t →
    (∀ id sel name, i = .regRegister id sel name →
      ((s.regState = .building ∧ id < 2 ^ 16 ∧ sel < 2 ^ s.cfg.wSel ∧ name < 2 ^ s.cfg.wName ∧
          s.Registered (BitVec.ofNat 16 id)) → t.regState = .aborted) ∧
      (¬ (s.regState = .building ∧ id < 2 ^ 16 ∧ sel < 2 ^ s.cfg.wSel ∧ name < 2 ^ s.cfg.wName ∧
          s.Registered (BitVec.ofNat 16 id)) → t.regState = s.regState)) ∧
    (i = .regSeal → s.regState = .aborted → t.regState = .aborted) ∧
    (i = .regSeal → s.regState ≠ .aborted → t.regState = .sealed) ∧
    (i = .regClear → t.regState = .building ∧ t.regCount = 0 ∧ ∀ e ∈ t.entries, e = {}) ∧
    ((∀ id sel name, i ≠ .regRegister id sel name) → i ≠ .regSeal → i ≠ .regClear → t.regState = s.regState)) ∧
  RegState.building.code = 0 ∧ RegState.sealed.code = 1 ∧ RegState.aborted.code = 2

/-- D13 (R21): the format changes by a CFG_WRITE of CTRL and by nothing else that a request does, so no
decoded byte changes it. -/
def Obligations.OnlyCfgWriteChangesTheFormat : Prop :=
  ∀ (i : Instr) (s t : State), exec i s = .next t → t.extEn ≠ s.extEn →
    ∃ value, i = .cfgWrite 0 value ∧ value < 2 ∧ (t.extEn = true ↔ value = 1)

/-- R41 and R73: the codec operations, the reads and ENV_ENCODE write neither block state nor the
delivery log; ENV_DECODE writes no block state. -/
def Obligations.ReadersWriteNoState : Prop :=
  ∀ (i : Instr) (s t : State), exec i s = .next t →
    (∀ reg value, i ≠ .cfgWrite reg value) → (∀ id sel name, i ≠ .regRegister id sel name) →
    i ≠ .regSeal → i ≠ .regClear →
    t.block = s.block ∧ ((∀ len frame, i ≠ .envDecode len frame) → t.dlog = s.dlog)

/-- R113: a request that ends in a status other than OK writes no block state, except that
DuplicateFrameId sets ABORTED, and delivers nothing, except that ENV_DECODE's UnknownFrameId delivers
one frame to UNKNOWN. -/
def Obligations.ErrorsWriteNoBlockState : Prop :=
  ∀ (i : Instr) (s t : State) (r : Result), exec i s = .next t → t.results = s.results ++ [r] → r.status ≠ .ok →
    (r.status ≠ .duplicateFrameId → t.block = s.block) ∧
    (r.status = .duplicateFrameId → t.block = { s.block with regState := .aborted }) ∧
    ((∀ len frame, i ≠ .envDecode len frame) ∨ r.status ≠ .unknownFrameId → t.dlog = s.dlog) ∧
    (∀ len frame, i = .envDecode len frame → r.status = .unknownFrameId →
      ∃ p, t.dlog = s.dlog ++ [{ port := .unknown, record := p }])

/-- R26: the delivery log is only appended to, by ENV_DECODE alone, by at most one event per request. -/
def Obligations.DeliveryLogIsAppendOnly : Prop :=
  ∀ (i : Instr) (s t : State), exec i s = .next t →
    t.dlog = s.dlog ∨ ∃ len frame d, i = .envDecode len frame ∧ t.dlog = s.dlog ++ [d]

/-- R25 (d): a step from a state of the invariant leaves a registered entry as it is, unless the step
is a reset or a REG_CLEAR. -/
def Obligations.ValidEntriesStayUntilCleared : Prop :=
  ∀ (s t : State) (n : Nat), s.Inv → step s = .next t → n < s.regCount →
    (entryAt n t = entryAt n s ∧ n < t.regCount) ∨
    (∃ rest, s.port = .reset :: rest) ∨
    (∃ w rest, s.port = .present w :: rest ∧ decode w = .ok .regClear)

/-- R14, R26 and R27: a request's answer depends on the block state and the parameters alone. Two states
that agree on these, whatever their histories, refuse the same requests and return the same result,
the same block state and the same deliveries. -/
def Obligations.HistoryIsNoInput : Prop :=
  ∀ (i : Instr) (s s' : State), s.block = s'.block → s.cfg = s'.cfg →
    (∀ r, exec i s = .refused r ↔ exec i s' = .refused r) ∧
    (∀ t, exec i s = .next t → ∃ t' r ds, exec i s' = .next t' ∧ t'.block = t.block ∧
      t.results = s.results ++ [r] ∧ t'.results = s'.results ++ [r] ∧
      t.dlog = s.dlog ++ ds ∧ t'.dlog = s'.dlog ++ ds)

/-- R97: two states that differ only in the NAME of entries (and in names returned earlier) give, for
every request, answers that differ only there. -/
def Obligations.NamesHaveNoEffect : Prop :=
  (∀ (i : Instr) (s s' : State), s.eraseNames = s'.eraseNames →
    eraseAnswerNames (exec i s) = eraseAnswerNames (exec i s')) ∧
  (∀ (i : Instr) (s t : State) (r : Result), exec i s = .next t → t.results = s.results ++ [r] →
    (∀ id, i ≠ .regLookup id) → r.name = 0)

/-- R43 (a) to (d): what a request wrote is seen by the very next one, and the deliveries of two frames
that the block parses and routes stand in the log in the order of their requests. -/
def Obligations.WritesAreSeenByTheNextRequest : Prop :=
  (∀ (s t : State) (value : Nat), value < 2 → exec (.cfgWrite 0 value) s = .next t →
    t.extEn = decide (value = 1) ∧ CompletesWith (.cfgRead 0) t { value := value }) ∧
  (∀ (s t : State) (id sel name n : Nat), s.Inv →
    exec (.regRegister id sel name) s = .next t → t.results = s.results ++ [{ index := n }] →
    CompletesWith (.regLookup id) t { sel := sel, name := name, index := n } ∧
    dispatch (BitVec.ofNat 16 id) t = (.ok, some (.codec sel))) ∧
  (∀ (s t : State) (id : Nat), id < 2 ^ 16 → exec .regClear s = .next t →
    CompletesWith (.regLookup id) t { status := .unknownFrameId, info := .operand .id }) ∧
  (∀ (s : State) (frame frame' : List Byte) (p p' : DeliveryRecord) (st st' : Status) (k k' : OutPort),
    frame.length ≤ s.cfg.maxFrame → frame'.length ≤ s.cfg.maxFrame →
    parseEnvelope frame frame.length s.extEn = some p → dispatch p.id s = (st, some k) →
    parseEnvelope frame' frame'.length s.extEn = some p' → dispatch p'.id s = (st', some k') →
    ∃ t u, exec (.envDecode frame.length (some frame)) s = .next t ∧
      exec (.envDecode frame'.length (some frame')) t = .next u ∧
      u.dlog = s.dlog ++ [{ port := k, record := p }, { port := k', record := p' }])

/-! ## Configuration operations -/

/-- R107: CFG_WRITE, every case. -/
def Obligations.CfgWriteOfEveryRegister : Prop :=
  ∀ (s : State) (reg value : Nat),
    (2 ^ 8 ≤ reg → CompletesWith (.cfgWrite reg value) s { status := .fieldOverflow, info := .operand .reg }) ∧
    (reg = 0 → 2 ≤ value →
      CompletesWith (.cfgWrite reg value) s { status := .fieldOverflow, info := .operand .value }) ∧
    (reg = 0 → value < 2 → exec (.cfgWrite reg value) s =
      .next { s with extEn := decide (value = 1), q := s.q + 1, results := s.results ++ [{}] }) ∧
    (1 ≤ reg → reg < 2 ^ 8 →
      CompletesWith (.cfgWrite reg value) s { status := .illegalOperation, info := .operand .reg })

/-- R108: CFG_READ, every case, with the codes of R23. -/
def Obligations.CfgReadOfEveryRegister : Prop :=
  ∀ (s : State) (reg : Nat),
    (2 ^ 8 ≤ reg → CompletesWith (.cfgRead reg) s { status := .fieldOverflow, info := .operand .reg }) ∧
    (reg = 0 → s.extEn = false → CompletesWith (.cfgRead reg) s { value := 0 }) ∧
    (reg = 0 → s.extEn = true → CompletesWith (.cfgRead reg) s { value := 1 }) ∧
    (reg = 1 → s.regState = .building → CompletesWith (.cfgRead reg) s { value := 4 * s.regCount }) ∧
    (reg = 1 → s.regState = .sealed → CompletesWith (.cfgRead reg) s { value := 4 * s.regCount + 1 }) ∧
    (reg = 1 → s.regState = .aborted → CompletesWith (.cfgRead reg) s { value := 4 * s.regCount + 2 }) ∧
    (2 ≤ reg → reg < 2 ^ 8 →
      CompletesWith (.cfgRead reg) s { status := .illegalOperation, info := .operand .reg })

/-- R22: in the states of the invariant REG_STATUS fits a lane, its bits 1:0 are STATE and the bits above
are COUNT; code 3 is not read. -/
def Obligations.RegStatusFitsItsRegister : Prop :=
  ∀ s : State, s.Inv → ∃ v, CompletesWith (.cfgRead 1) s { value := v } ∧ v < 2 ^ valW ∧
    v / 4 = s.regCount ∧ v % 4 = s.regState.code.toNat ∧ v % 4 ≠ 3

/-- R109 (and R61): an undefined operation code completes with IllegalOperation(op) in every state;
nothing else changes. -/
def Obligations.UndefinedOpCodesCompleteWithIllegalOperation : Prop :=
  ∀ (s : State) (op : Byte),
    CompletesWith (.illegal op) s { status := .illegalOperation, info := .operand .op }

/-- R110: the ten status codes; no status has a code from 10 to 15. -/
def Obligations.StatusCodes : Prop :=
  Status.ok.code = 0 ∧ Status.fieldOverflow.code = 1 ∧ Status.unknownEnumValue.code = 2 ∧
  Status.malformedHeader.code = 3 ∧ Status.unknownFrameId.code = 4 ∧ Status.duplicateFrameId.code = 5 ∧
  Status.registryFull.code = 6 ∧ Status.registryLocked.code = 7 ∧ Status.registryAborted.code = 8 ∧
  Status.illegalOperation.code = 9 ∧ ∀ st : Status, st.code.toNat ≤ 9

/-! ## BitField codec -/

/-- R68: what makes a descriptor set well-formed, the three fixed sets being so, and with them every set
a request can name in a block whose parameters are well-formed (I4). -/
def Obligations.DescriptorSetsAreWellFormed : Prop :=
  (∀ d : DescSet, descSetWellFormed d = true ↔
    (1 ≤ d.fields.length ∧ ∀ f ∈ d.fields, 1 ≤ f.width) ∧
    (d.fields.map (·.width)).sum = d.bits ∧
    (∀ f ∈ d.fields, f.enc = .bool → f.width = 1) ∧
    (∀ f ∈ d.fields, ∀ vs, f.enc = .enum vs → vs.length = 2 ^ f.width ∧
      ∀ code < 2 ^ f.width, ∃! n : Nat, (vs.map (·.2))[n]? = some code) ∧
    ((d.fields.map (·.name)).Nodup ∧ ∀ f ∈ d.fields, ∀ vs, f.enc = .enum vs → (vs.map (·.1)).Nodup) ∧
    d.bits ≤ 16) ∧
  (∀ d ∈ [lcmdSet, lrspSet, extSet], descSetWellFormed d = true ∧ d.bits = 8) ∧
  (∀ c : Config, configWellFormed c = true → ∀ d ∈ descSets c, descSetWellFormed d = true)

/-- R72: on in-range values `pack` succeeds and `unpack` inverts it, `pack` inverts `unpack` on every
container, and so `pack` is a bijection from the in-range value lists onto the containers. -/
def Obligations.PackAndUnpackAreInverse : Prop :=
  ∀ d : DescSet, descSetWellFormed d = true →
    (∀ v : List Nat, v.length = fieldCount d → (∀ i < fieldCount d, v.getD i 0 < 2 ^ fieldWidth d i) →
      ∃ c, pack d v = .ok c ∧ c < 2 ^ d.bits ∧ unpack d c = v) ∧
    (∀ c < 2 ^ d.bits, pack d (unpack d c) = .ok c) ∧
    (∀ c < 2 ^ d.bits, ∃! v : List Nat,
      v.length = fieldCount d ∧ (∀ i < fieldCount d, v.getD i 0 < 2 ^ fieldWidth d i) ∧ pack d v = .ok c)

/-- R70 and R74: BF_PACK, every case. On in-range values the container is the sum of the values, each at
its field's offset; otherwise the lowest failing field is reported. -/
def Obligations.BfPackEveryCase : Prop :=
  ∀ (s : State) (dset : Nat) (values : List Nat),
    (2 ^ 8 ≤ dset → CompletesWith (.bfPack dset values) s { status := .fieldOverflow, info := .operand .dset }) ∧
    (dset < 2 ^ 8 → (descSets s.cfg).length ≤ dset →
      CompletesWith (.bfPack dset values) s { status := .illegalOperation, info := .operand .dset }) ∧
    (∀ d, dset < 2 ^ 8 → (descSets s.cfg)[dset]? = some d →
      (values.length ≠ fieldCount d →
        CompletesWith (.bfPack dset values) s { status := .illegalOperation, info := .operand .values }) ∧
      (values.length = fieldCount d → (∀ i < fieldCount d, values.getD i 0 < 2 ^ fieldWidth d i) →
        CompletesWith (.bfPack dset values) s
          { c := ∑ i ∈ Finset.range (fieldCount d), values.getD i 0 * 2 ^ fieldOffset d i }) ∧
      (values.length = fieldCount d → ∀ i f, d.fields[i]? = some f →
        (∀ j < i, values.getD j 0 < 2 ^ fieldWidth d j) → 2 ^ f.width ≤ values.getD i 0 →
        (f.enc = .bool ∨ f.enc = .uint →
          CompletesWith (.bfPack dset values) s { status := .fieldOverflow, info := .field i }) ∧
        (∀ vs, f.enc = .enum vs →
          CompletesWith (.bfPack dset values) s { status := .unknownEnumValue, info := .field i })))

/-- R71 and R75: BF_UNPACK, every case; lane `i` is the field at bits `off_i + w_i - 1 : off_i`. -/
def Obligations.BfUnpackEveryCase : Prop :=
  ∀ (s : State) (dset c : Nat),
    (2 ^ 8 ≤ dset → CompletesWith (.bfUnpack dset c) s { status := .fieldOverflow, info := .operand .dset }) ∧
    (dset < 2 ^ 8 → (descSets s.cfg).length ≤ dset →
      CompletesWith (.bfUnpack dset c) s { status := .illegalOperation, info := .operand .dset }) ∧
    (∀ d, dset < 2 ^ 8 → (descSets s.cfg)[dset]? = some d →
      (2 ^ d.bits ≤ c → CompletesWith (.bfUnpack dset c) s { status := .fieldOverflow, info := .operand .c }) ∧
      (c < 2 ^ d.bits → CompletesWith (.bfUnpack dset c) s
        { values := (List.range (fieldCount d)).map (fun i => c / 2 ^ fieldOffset d i % 2 ^ fieldWidth d i) }))

/-! ## Frame control -/

/-- R76 to R78: the bits of the flag vector. -/
def Obligations.ReservedFlags : Prop :=
  (∀ b : Byte, (rsvLegacy b).getLsbD 0 = decide (b.toNat / 8 % 4 = 3) ∧
    (rsvLegacy b).getLsbD 1 = decide (b.toNat % 2 = 0 ∧ b.toNat / 8 % 4 ≠ 0) ∧
    (rsvLegacy b).getLsbD 2 = decide (b.toNat % 2 = 0 ∧ b.toNat / 64 = 3)) ∧
  (∀ x : Byte, (rsvExt x).getLsbD 0 = decide (x.toNat / 4 % 16 ≠ 0) ∧
    (rsvExt x).getLsbD 1 = decide (2 ≤ x.toNat / 64)) ∧
  (∀ x b : Byte, (rsvOf (some x) (some b)).toNat = 8 * (rsvExt x).toNat + (rsvLegacy b).toNat ∧
    (rsvOf none (some b)).toNat = (rsvLegacy b).toNat ∧ (rsvOf (some x) none).toNat = 8 * (rsvExt x).toNat ∧
    rsvOf none none = 0)

/-- R81 and R84: FC_ENC_CMD, every case, the flags as R76 gives them for a command byte. -/
def Obligations.FcEncCmdEveryCase : Prop :=
  ∀ (s : State) (ni ct cp sm : Nat),
    (ni < 4 → ct < 4 → cp < 2 → sm < 4 → CompletesWith (.fcEncCmd ni ct cp sm) s
      { b := BitVec.ofNat 8 (2 * ni + 8 * ct + 32 * cp + 64 * sm)
        rsv := BitVec.ofNat 5 ((decide (ct = 3)).toNat + 2 * (decide (ct ≠ 0)).toNat + 4 * (decide (sm = 3)).toNat) }) ∧
    (4 ≤ ni → CompletesWith (.fcEncCmd ni ct cp sm) s { status := .fieldOverflow, info := .operand .networkIndex }) ∧
    (ni < 4 → 4 ≤ ct →
      CompletesWith (.fcEncCmd ni ct cp sm) s { status := .unknownEnumValue, info := .operand .callbackType }) ∧
    (ni < 4 → ct < 4 → 2 ≤ cp →
      CompletesWith (.fcEncCmd ni ct cp sm) s { status := .fieldOverflow, info := .operand .callbackPending }) ∧
    (ni < 4 → ct < 4 → cp < 2 → 4 ≤ sm →
      CompletesWith (.fcEncCmd ni ct cp sm) s { status := .unknownEnumValue, info := .operand .sleepMode })

/-- R82 and R85: FC_ENC_RSP, every case. -/
def Obligations.FcEncRspEveryCase : Prop :=
  ∀ (s : State) (ni ct cp tr ov : Nat),
    (ni < 4 → ct < 4 → cp < 2 → tr < 2 → ov < 2 → CompletesWith (.fcEncRsp ni ct cp tr ov) s
      { b := BitVec.ofNat 8 (1 + 2 * ni + 8 * ct + 32 * cp + 64 * tr + 128 * ov)
        rsv := BitVec.ofNat 5 (decide (ct = 3)).toNat }) ∧
    (4 ≤ ni →
      CompletesWith (.fcEncRsp ni ct cp tr ov) s { status := .fieldOverflow, info := .operand .networkIndex }) ∧
    (ni < 4 → 4 ≤ ct →
      CompletesWith (.fcEncRsp ni ct cp tr ov) s { status := .unknownEnumValue, info := .operand .callbackType }) ∧
    (ni < 4 → ct < 4 → 2 ≤ cp →
      CompletesWith (.fcEncRsp ni ct cp tr ov) s { status := .fieldOverflow, info := .operand .callbackPending }) ∧
    (ni < 4 → ct < 4 → cp < 2 → 2 ≤ tr →
      CompletesWith (.fcEncRsp ni ct cp tr ov) s { status := .fieldOverflow, info := .operand .truncated }) ∧
    (ni < 4 → ct < 4 → cp < 2 → tr < 2 → 2 ≤ ov →
      CompletesWith (.fcEncRsp ni ct cp tr ov) s { status := .fieldOverflow, info := .operand .overflow })

/-- R83 and R87: FC_ENC_EXT, every case. -/
def Obligations.FcEncExtEveryCase : Prop :=
  ∀ (s : State) (se pe rs ver : Nat),
    (se < 2 → pe < 2 → rs < 16 → ver < 4 → CompletesWith (.fcEncExt se pe rs ver) s
      { x := BitVec.ofNat 8 (se + 2 * pe + 4 * rs + 64 * ver)
        rsv := BitVec.ofNat 5 (8 * (decide (rs ≠ 0)).toNat + 16 * (decide (2 ≤ ver)).toNat) }) ∧
    (2 ≤ se →
      CompletesWith (.fcEncExt se pe rs ver) s { status := .fieldOverflow, info := .operand .securityEnabled }) ∧
    (se < 2 → 2 ≤ pe →
      CompletesWith (.fcEncExt se pe rs ver) s { status := .fieldOverflow, info := .operand .paddingEnabled }) ∧
    (se < 2 → pe < 2 → 16 ≤ rs →
      CompletesWith (.fcEncExt se pe rs ver) s { status := .fieldOverflow, info := .operand .reserved }) ∧
    (se < 2 → pe < 2 → rs < 16 → 4 ≤ ver →
      CompletesWith (.fcEncExt se pe rs ver) s { status := .unknownEnumValue, info := .operand .frameFormatVersion })

/-- R79 and R86: FC_DEC, every case. The fields are those `unpack` gives for the view that bit 0 selects,
the other view's fields 0, and the flags those of R76. -/
def Obligations.FcDecEveryCase : Prop :=
  ∀ (s : State) (b : Nat),
    (2 ^ 8 ≤ b → CompletesWith (.fcDec b) s { status := .fieldOverflow, info := .operand .b }) ∧
    (b < 2 ^ 8 → ∃ f : LegacyFields,
      CompletesWith (.fcDec b) s
        { legacy := f
          rsv := BitVec.ofNat 5 ((decide (b / 8 % 4 = 3)).toNat + 2 * (decide (b % 2 = 0 ∧ b / 8 % 4 ≠ 0)).toNat
            + 4 * (decide (b % 2 = 0 ∧ b / 64 = 3)).toNat) } ∧
      f.networkIndex.toNat = b / 2 % 4 ∧ f.callbackType.code.toNat = b / 8 % 4 ∧
      f.callbackPending = decide (b / 32 % 2 = 1) ∧
      (b % 2 = 0 → f.kind = .command ∧ f.sleepMode.code.toNat = b / 64 ∧ f.truncated = false ∧ f.overflow = false ∧
        unpack lcmdSet b = [0, f.networkIndex.toNat, f.callbackType.code.toNat, f.callbackPending.toNat,
          f.sleepMode.code.toNat]) ∧
      (b % 2 = 1 → f.kind = .response ∧ f.sleepMode = .idle ∧ f.truncated = decide (b / 64 % 2 = 1) ∧
        f.overflow = decide (b / 128 = 1) ∧
        unpack lrspSet b = [1, f.networkIndex.toNat, f.callbackType.code.toNat, f.callbackPending.toNat,
          f.truncated.toNat, f.overflow.toNat]))

/-- R80 and R88: FC_DEC_EXT, every case. -/
def Obligations.FcDecExtEveryCase : Prop :=
  ∀ (s : State) (x : Nat),
    (2 ^ 8 ≤ x → CompletesWith (.fcDecExt x) s { status := .fieldOverflow, info := .operand .x }) ∧
    (x < 2 ^ 8 → ∃ f : ExtFields,
      CompletesWith (.fcDecExt x) s
        { ext := f
          rsv := BitVec.ofNat 5 (8 * (decide (x / 4 % 16 ≠ 0)).toNat + 16 * (decide (2 ≤ x / 64)).toNat) } ∧
      f.securityEnabled = decide (x % 2 = 1) ∧ f.paddingEnabled = decide (x / 2 % 2 = 1) ∧
      f.reserved.toNat = x / 4 % 16 ∧ f.frameFormatVersion.code.toNat = x / 64 ∧
      unpack extSet x = [f.securityEnabled.toNat, f.paddingEnabled.toNat, f.reserved.toNat,
        f.frameFormatVersion.code.toNat])

/-- R89: the round trips of the three control bytes, in both directions. -/
def Obligations.ControlByteRoundTrips : Prop :=
  (∀ ni ct cp sm : Nat, ni < 4 → ct < 4 → cp < 2 → sm < 4 → ∃ b, encodeCmd ni ct cp sm = .ok b ∧
    decodeLegacy b = { kind := .command, networkIndex := BitVec.ofNat 2 ni, callbackType := .ofCode (BitVec.ofNat 2 ct),
                       callbackPending := decide (cp = 1), sleepMode := .ofCode (BitVec.ofNat 2 sm) }) ∧
  (∀ ni ct cp tr ov : Nat, ni < 4 → ct < 4 → cp < 2 → tr < 2 → ov < 2 → ∃ b, encodeRsp ni ct cp tr ov = .ok b ∧
    decodeLegacy b = { kind := .response, networkIndex := BitVec.ofNat 2 ni, callbackType := .ofCode (BitVec.ofNat 2 ct),
                       callbackPending := decide (cp = 1), truncated := decide (tr = 1), overflow := decide (ov = 1) }) ∧
  (∀ se pe rs ver : Nat, se < 2 → pe < 2 → rs < 16 → ver < 4 → ∃ x, encodeExt se pe rs ver = .ok x ∧
    decodeExt x = { securityEnabled := decide (se = 1), paddingEnabled := decide (pe = 1),
                    reserved := BitVec.ofNat 4 rs, frameFormatVersion := .ofCode (BitVec.ofNat 2 ver) }) ∧
  (∀ b : Byte,
    (b.getLsbD 0 = false → encodeCmd (decodeLegacy b).networkIndex.toNat (decodeLegacy b).callbackType.code.toNat
      (decodeLegacy b).callbackPending.toNat (decodeLegacy b).sleepMode.code.toNat = .ok b) ∧
    (b.getLsbD 0 = true → encodeRsp (decodeLegacy b).networkIndex.toNat (decodeLegacy b).callbackType.code.toNat
      (decodeLegacy b).callbackPending.toNat (decodeLegacy b).truncated.toNat (decodeLegacy b).overflow.toNat = .ok b)) ∧
  (∀ x : Byte, encodeExt (decodeExt x).securityEnabled.toNat (decodeExt x).paddingEnabled.toNat
    (decodeExt x).reserved.toNat (decodeExt x).frameFormatVersion.code.toNat = .ok x)

/-- R90: every byte decodes with status OK in every decode operation, in both legacy views; the only
other status a decode operation raises is FieldOverflow, for a lane of 256 or more. -/
def Obligations.EveryByteDecodes : Prop :=
  ∀ (s : State) (v : Nat),
    (v < 2 ^ 8 → ∀ i ∈ [Instr.fcDec v, .fcDecExt v, .bfUnpack 0 v, .bfUnpack 1 v],
      ∃ t r, exec i s = .next t ∧ t.results = s.results ++ [r] ∧ r.status = .ok ∧ t.block = s.block) ∧
    (2 ^ 8 ≤ v → ∀ i ∈ [Instr.fcDec v, .fcDecExt v, .bfUnpack 0 v, .bfUnpack 1 v],
      ∃ t r, exec i s = .next t ∧ t.results = s.results ++ [r] ∧ r.status = .fieldOverflow ∧ t.block = s.block)

/-- Log entry 10, the model's choice for the table's wire rows: a control byte presented by itself
completes as FC_DEC or FC_DEC_EXT of that byte does, its fields read as R49 to R51 lay them out. -/
def Obligations.WireBytesCompleteAsTheirDecoding : Prop :=
  (∀ (s : State) (ni : BitVec 2) (ct : CallbackType) (cp : Bool) (sm : SleepMode),
    CompletesWith (.wLcmd ni ct cp sm) s
      { legacy := { kind := .command, networkIndex := ni, callbackType := ct, callbackPending := cp, sleepMode := sm }
        rsv := rsvOf none (some (lcmdByte ni ct cp sm)) } ∧
    exec (.wLcmd ni ct cp sm) s = exec (.fcDec (lcmdByte ni ct cp sm).toNat) s) ∧
  (∀ (s : State) (ni : BitVec 2) (ct : CallbackType) (cp tr ov : Bool),
    CompletesWith (.wLrsp ni ct cp tr ov) s
      { legacy := { kind := .response, networkIndex := ni, callbackType := ct, callbackPending := cp,
                    truncated := tr, overflow := ov }
        rsv := rsvOf none (some (lrspByte ni ct cp tr ov)) } ∧
    exec (.wLrsp ni ct cp tr ov) s = exec (.fcDec (lrspByte ni ct cp tr ov).toNat) s) ∧
  (∀ (s : State) (se pe : Bool) (rs : BitVec 4) (ver : FrameFormatVersion),
    CompletesWith (.wExt se pe rs ver) s
      { ext := { securityEnabled := se, paddingEnabled := pe, reserved := rs, frameFormatVersion := ver }
        rsv := rsvOf (some (extByteOf se pe rs ver)) none } ∧
    exec (.wExt se pe rs ver) s = exec (.fcDecExt (extByteOf se pe rs ver).toNat) s)

/-! ## Registry -/

/-- R92: `find` answers the one index whose valid entry has the ID, and nothing when none has; it does not
read NAME. -/
def Obligations.FindIsTheRegisteredIndex : Prop :=
  (∀ (s : State) (id : FrameId), s.Inv →
    (∀ i, find id s = some i ↔ s.HoldsAt i id) ∧ (find id s = none ↔ ¬ s.Registered id) ∧
    (∀ i j, s.HoldsAt i id → s.HoldsAt j id → i = j)) ∧
  (∀ (s s' : State) (id : FrameId), s.eraseNames = s'.eraseNames → find id s = find id s')

/-- R93: REG_REGISTER, every case in its order. -/
def Obligations.RegRegisterEveryCase : Prop :=
  ∀ (s : State) (id sel name : Nat),
    (2 ^ 16 ≤ id → CompletesWith (.regRegister id sel name) s { status := .fieldOverflow, info := .operand .id }) ∧
    (id < 2 ^ 16 → 2 ^ s.cfg.wSel ≤ sel →
      CompletesWith (.regRegister id sel name) s { status := .fieldOverflow, info := .operand .sel }) ∧
    (id < 2 ^ 16 → sel < 2 ^ s.cfg.wSel → 2 ^ s.cfg.wName ≤ name →
      CompletesWith (.regRegister id sel name) s { status := .fieldOverflow, info := .operand .name }) ∧
    (id < 2 ^ 16 → sel < 2 ^ s.cfg.wSel → name < 2 ^ s.cfg.wName →
      (s.regState = .sealed → CompletesWith (.regRegister id sel name) s { status := .registryLocked }) ∧
      (s.regState = .aborted → CompletesWith (.regRegister id sel name) s { status := .registryAborted }) ∧
      (s.regState = .building → s.Registered (BitVec.ofNat 16 id) → exec (.regRegister id sel name) s =
        .next { s with regState := .aborted, q := s.q + 1,
                       results := s.results ++ [{ status := .duplicateFrameId, info := .operand .id }] }) ∧
      (s.regState = .building → ¬ s.Registered (BitVec.ofNat 16 id) → s.regCount = s.cfg.nReg →
        CompletesWith (.regRegister id sel name) s { status := .registryFull }) ∧
      (s.regState = .building → ¬ s.Registered (BitVec.ofNat 16 id) → s.regCount ≠ s.cfg.nReg →
        exec (.regRegister id sel name) s =
          .next { s with entries := s.entries.set s.regCount
                           { valid := true, id := BitVec.ofNat 16 id, sel := sel, name := name },
                         regCount := s.regCount + 1, q := s.q + 1,
                         results := s.results ++ [{ index := s.regCount }] }))

/-- R94: REG_LOOKUP, every case; where the invariant fails the entry found is the lowest (log entry 14),
so the registered case has it as a premise. -/
def Obligations.RegLookupEveryCase : Prop :=
  ∀ (s : State) (id : Nat),
    (2 ^ 16 ≤ id → CompletesWith (.regLookup id) s { status := .fieldOverflow, info := .operand .id }) ∧
    (id < 2 ^ 16 → s.regState = .aborted → CompletesWith (.regLookup id) s { status := .registryAborted }) ∧
    (id < 2 ^ 16 → s.regState ≠ .aborted → ¬ s.Registered (BitVec.ofNat 16 id) →
      CompletesWith (.regLookup id) s { status := .unknownFrameId, info := .operand .id }) ∧
    (∀ n, s.Inv → id < 2 ^ 16 → s.regState ≠ .aborted → s.HoldsAt n (BitVec.ofNat 16 id) →
      CompletesWith (.regLookup id) s { sel := (entryAt n s).sel, name := (entryAt n s).name, index := n })

/-- R95 and R96: REG_SEAL and REG_CLEAR, every case. -/
def Obligations.RegSealAndRegClearEveryCase : Prop :=
  ∀ s : State,
    (s.regState = .aborted → CompletesWith .regSeal s { status := .registryAborted }) ∧
    (s.regState ≠ .aborted →
      exec .regSeal s = .next { s with regState := .sealed, q := s.q + 1, results := s.results ++ [{}] }) ∧
    ∃ es : List Entry,
      exec .regClear s = .next { s with entries := es, regCount := 0, regState := .building, q := s.q + 1,
                                        results := s.results ++ [{}] } ∧
      es.length = s.cfg.nReg ∧ ∀ e ∈ es, e.valid = false ∧ e.id = 0 ∧ e.sel = 0 ∧ e.name = 0

/-- R98 (b) to (d), one request at a time: what an OK registration leaves, and what every other request
but REG_CLEAR leaves of a registered entry. -/
def Obligations.RegistrationsPersist : Prop :=
  ∀ (i : Instr) (s t : State) (n : Nat) (id : FrameId), s.Inv → exec i s = .next t → s.HoldsAt n id → i ≠ .regClear →
    t.HoldsAt n id ∧ entryAt n t = entryAt n s ∧
    (∀ id' sel name m, i = .regRegister id' sel name → t.results = s.results ++ [{ index := m }] →
      BitVec.ofNat 16 id' ≠ id) ∧
    (t.regState ≠ .aborted → CompletesWith (.regLookup id.toNat) t
      { sel := (entryAt n s).sel, name := (entryAt n s).name, index := n }) ∧
    (t.regState = .aborted → CompletesWith (.regLookup id.toNat) t { status := .registryAborted })

/-! ## Envelope and dispatch -/

/-- R101 to R103: ENV_DECODE's refusal and its errors, in their order. A missing buffer is the model's
reading of D24 (log entry 9) and stands in `MissingBuffersAreIllegal`. -/
def Obligations.EnvDecodeErrors : Prop :=
  ∀ (s : State) (len : Nat) (bytes : List Byte),
    (s.cfg.maxFrame < len → exec (.envDecode len (some bytes)) s = .refused .frameTooLong) ∧
    (len ≤ s.cfg.maxFrame → len ≠ bytes.length →
      CompletesWith (.envDecode len (some bytes)) s { status := .illegalOperation, info := .operand .len }) ∧
    (len ≤ s.cfg.maxFrame → len = bytes.length → len < 4 + s.extEn.toNat →
      CompletesWith (.envDecode len (some bytes)) s { status := .malformedHeader, info := .operand .len })

/-- R101 to R103 in the legacy format: the four header bytes, the payload, and the route for each
outcome of dispatch. -/
def Obligations.EnvDecodeLegacyFrame : Prop :=
  ∀ (s : State) (sq b lo hi : Byte) (payload : List Byte),
    let frame := sq :: b :: lo :: hi :: payload
    let p : DeliveryRecord :=
      { seq := sq, legacy := decodeLegacy b, extPresent := false, ext := {}, id := hi ++ lo,
        plen := payload.length, payload := payload, rsv := rsvOf none (some b) }
    let r : Result :=
      { seq := sq, legacy := decodeLegacy b, id := hi ++ lo, plen := payload.length, payload := payload,
        rsv := rsvOf none (some b) }
    s.extEn = false → frame.length ≤ s.cfg.maxFrame →
    (s.regState = .aborted →
      CompletesWith (.envDecode frame.length (some frame)) s { r with status := .registryAborted }) ∧
    (s.regState ≠ .aborted → ¬ s.Registered (hi ++ lo) →
      exec (.envDecode frame.length (some frame)) s =
        .next { s with dlog := s.dlog ++ [{ port := .unknown, record := p }], q := s.q + 1,
                       results := s.results ++
                         [{ r with status := .unknownFrameId, info := .operand .id, route := some .unknown }] }) ∧
    (∀ n, s.Inv → s.regState ≠ .aborted → s.HoldsAt n (hi ++ lo) →
      exec (.envDecode frame.length (some frame)) s =
        .next { s with dlog := s.dlog ++ [{ port := .codec (entryAt n s).sel, record := p }], q := s.q + 1,
                       results := s.results ++ [{ r with route := some (.codec (entryAt n s).sel) }] })

/-- R101 to R103 in the extended format, whose header has the extended byte at offset 2. -/
def Obligations.EnvDecodeExtendedFrame : Prop :=
  ∀ (s : State) (sq b x lo hi : Byte) (payload : List Byte),
    let frame := sq :: b :: x :: lo :: hi :: payload
    let p : DeliveryRecord :=
      { seq := sq, legacy := decodeLegacy b, extPresent := true, ext := decodeExt x, id := hi ++ lo,
        plen := payload.length, payload := payload, rsv := rsvOf (some x) (some b) }
    let r : Result :=
      { seq := sq, legacy := decodeLegacy b, extPresent := true, ext := decodeExt x, id := hi ++ lo,
        plen := payload.length, payload := payload, rsv := rsvOf (some x) (some b) }
    s.extEn = true → frame.length ≤ s.cfg.maxFrame →
    (s.regState = .aborted →
      CompletesWith (.envDecode frame.length (some frame)) s { r with status := .registryAborted }) ∧
    (s.regState ≠ .aborted → ¬ s.Registered (hi ++ lo) →
      exec (.envDecode frame.length (some frame)) s =
        .next { s with dlog := s.dlog ++ [{ port := .unknown, record := p }], q := s.q + 1,
                       results := s.results ++
                         [{ r with status := .unknownFrameId, info := .operand .id, route := some .unknown }] }) ∧
    (∀ n, s.Inv → s.regState ≠ .aborted → s.HoldsAt n (hi ++ lo) →
      exec (.envDecode frame.length (some frame)) s =
        .next { s with dlog := s.dlog ++ [{ port := .codec (entryAt n s).sel, record := p }], q := s.q + 1,
                       results := s.results ++ [{ r with route := some (.codec (entryAt n s).sel) }] })

/-- R106: an ENV_DECODE that does not answer OK, for any reason, writes no block state, and the log only
on UnknownFrameId; whatever requests come after it are refused or answered, with the same results, block
state and deliveries, as without it. -/
def Obligations.FailedDecodesAreLocal : Prop :=
  ∀ (s t : State) (len : Nat) (frame : Option (List Byte)) (r : Result),
    exec (.envDecode len frame) s = .next t → t.results = s.results ++ [r] → r.status ≠ .ok →
    t.block = s.block ∧ (r.status ≠ .unknownFrameId → t.dlog = s.dlog) ∧
    ∀ later : List Instr,
      (∀ why, execAll later s = .refused why ↔ execAll later t = .refused why) ∧
      (∀ u, execAll later s = .next u → ∃ u' rs ds, execAll later t = .next u' ∧ u'.block = u.block ∧
        u.results = s.results ++ rs ∧ u'.results = t.results ++ rs ∧
        u.dlog = s.dlog ++ ds ∧ u'.dlog = t.dlog ++ ds)

/-- R104: ENV_ENCODE's errors and its refusal, in their order; operands that the format and the kind do
not read are not checked. -/
def Obligations.EnvEncodeErrors : Prop :=
  ∀ (s : State) (o : EnvelopeOperands) (payload : List Byte),
    (2 ^ 8 ≤ o.seq →
      CompletesWith (.envEncode o (some payload)) s { status := .fieldOverflow, info := .operand .seq }) ∧
    (o.seq < 2 ^ 8 → 2 ≤ o.kind →
      CompletesWith (.envEncode o (some payload)) s { status := .fieldOverflow, info := .operand .kind }) ∧
    (o.seq < 2 ^ 8 → o.kind < 2 → ∀ legacy,
      legacy = (if o.kind = 0 then encodeCmd o.networkIndex o.callbackType o.callbackPending o.sleepMode
        else encodeRsp o.networkIndex o.callbackType o.callbackPending o.truncated o.overflow) →
      (∀ st n, legacy = .error (st, n) →
        CompletesWith (.envEncode o (some payload)) s { status := st, info := .operand n }) ∧
      (∀ b, legacy = .ok b →
        (∀ st n, s.extEn = true →
          encodeExt o.securityEnabled o.paddingEnabled o.reserved o.frameFormatVersion = .error (st, n) →
          CompletesWith (.envEncode o (some payload)) s { status := st, info := .operand n }) ∧
        ((s.extEn = false ∨
            ∃ x, encodeExt o.securityEnabled o.paddingEnabled o.reserved o.frameFormatVersion = .ok x) →
          (2 ^ 16 ≤ o.id →
            CompletesWith (.envEncode o (some payload)) s { status := .fieldOverflow, info := .operand .id }) ∧
          (o.id < 2 ^ 16 → s.cfg.maxFrame < 4 + s.extEn.toNat + payload.length →
            exec (.envEncode o (some payload)) s = .refused .encodedFrameTooLong))))

/-- R104 with R55 and R57: the frame ENV_ENCODE returns, in both formats and both views. -/
def Obligations.EnvEncodeFrame : Prop :=
  ∀ (s : State) (o : EnvelopeOperands) (payload : List Byte) (b : Byte),
    o.seq < 2 ^ 8 → o.kind < 2 → o.id < 2 ^ 16 → 4 + s.extEn.toNat + payload.length ≤ s.cfg.maxFrame →
    (o.kind = 0 → encodeCmd o.networkIndex o.callbackType o.callbackPending o.sleepMode = .ok b) →
    (o.kind = 1 → encodeRsp o.networkIndex o.callbackType o.callbackPending o.truncated o.overflow = .ok b) →
    (s.extEn = false → CompletesWith (.envEncode o (some payload)) s
      { len := 4 + payload.length
        frame := [BitVec.ofNat 8 o.seq, b, BitVec.ofNat 8 o.id, BitVec.ofNat 8 (o.id / 256)] ++ payload
        rsv := rsvOf none (some b) }) ∧
    (s.extEn = true → ∀ x,
      encodeExt o.securityEnabled o.paddingEnabled o.reserved o.frameFormatVersion = .ok x →
      CompletesWith (.envEncode o (some payload)) s
        { len := 5 + payload.length
          frame := [BitVec.ofNat 8 o.seq, b, x, BitVec.ofNat 8 o.id, BitVec.ofNat 8 (o.id / 256)] ++ payload
          rsv := rsvOf (some x) (some b) })

/-- Log entry 9, the model's reading of D24: a record with no buffer is IllegalOperation of it, after
ENV_DECODE's refusal and before every other check. -/
def Obligations.MissingBuffersAreIllegal : Prop :=
  ∀ s : State,
    (∀ o : EnvelopeOperands,
      CompletesWith (.envEncode o none) s { status := .illegalOperation, info := .operand .payload }) ∧
    (∀ len, len ≤ s.cfg.maxFrame →
      CompletesWith (.envDecode len none) s { status := .illegalOperation, info := .operand .frame }) ∧
    (∀ len, s.cfg.maxFrame < len → exec (.envDecode len none) s = .refused .frameTooLong)

/-- R105, first part: what ENV_ENCODE formats, ENV_DECODE in a state of the same format and parameters
gives back, the fields not read as 0. -/
def Obligations.EncodedFramesDecodeToTheirOperands : Prop :=
  ∀ (s t s' : State) (o : EnvelopeOperands) (payload : List Byte) (r : Result),
    exec (.envEncode o (some payload)) s = .next t → t.results = s.results ++ [r] → r.status = .ok →
    s'.extEn = s.extEn → s'.cfg = s.cfg →
    r.len = r.frame.length ∧
    ∃ t' r', exec (.envDecode r.frame.length (some r.frame)) s' = .next t' ∧ t'.results = s'.results ++ [r'] ∧
      r'.seq.toNat = o.seq ∧ (r'.legacy.kind.code).toNat = o.kind ∧ r'.id.toNat = o.id ∧
      r'.legacy.networkIndex.toNat = o.networkIndex ∧ r'.legacy.callbackType.code.toNat = o.callbackType ∧
      r'.legacy.callbackPending.toNat = o.callbackPending ∧
      r'.legacy.sleepMode.code.toNat = (if o.kind = 0 then o.sleepMode else 0) ∧
      r'.legacy.truncated.toNat = (if o.kind = 1 then o.truncated else 0) ∧
      r'.legacy.overflow.toNat = (if o.kind = 1 then o.overflow else 0) ∧
      r'.extPresent = s.extEn ∧
      r'.ext.securityEnabled.toNat = (if s.extEn then o.securityEnabled else 0) ∧
      r'.ext.paddingEnabled.toNat = (if s.extEn then o.paddingEnabled else 0) ∧
      r'.ext.reserved.toNat = (if s.extEn then o.reserved else 0) ∧
      r'.ext.frameFormatVersion.code.toNat = (if s.extEn then o.frameFormatVersion else 0) ∧
      r'.payload = payload ∧ r'.plen = payload.length ∧ r'.rsv = r.rsv

/-- R105, second part: every frame that ENV_DECODE parses, encoded again from its decoded fields in a
state of the same format and parameters, gives the same bytes. -/
def Obligations.DecodedFramesEncodeToTheirBytes : Prop :=
  ∀ (s t s' : State) (bytes : List Byte) (r : Result),
    exec (.envDecode bytes.length (some bytes)) s = .next t → t.results = s.results ++ [r] →
    r.status ≠ .malformedHeader → s'.extEn = s.extEn → s'.cfg = s.cfg →
    ∃ t' r', exec (.envEncode
        { seq := r.seq.toNat
          kind := r.legacy.kind.code.toNat
          networkIndex := r.legacy.networkIndex.toNat
          callbackType := r.legacy.callbackType.code.toNat
          callbackPending := r.legacy.callbackPending.toNat
          sleepMode := r.legacy.sleepMode.code.toNat
          truncated := r.legacy.truncated.toNat
          overflow := r.legacy.overflow.toNat
          securityEnabled := r.ext.securityEnabled.toNat
          paddingEnabled := r.ext.paddingEnabled.toNat
          reserved := r.ext.reserved.toNat
          frameFormatVersion := r.ext.frameFormatVersion.code.toNat
          id := r.id.toNat } (some r.payload)) s' = .next t' ∧
      t'.results = s'.results ++ [r'] ∧ r'.status = .ok ∧ r'.frame = bytes ∧ r'.len = bytes.length ∧ r'.rsv = r.rsv
end

