-- ==== Sys2Proof/Laws/BitField.lean ====
section
/-! SUPPORT. What the BitField codec computes: the containers `packFields` builds, the fields
`unpackFields` reads, the first failing field, and the fixed descriptor sets. -/

namespace Sys2Proof.Machine

/-- The values fit their fields, in order, as many values as fields. -/
abbrev Fit (fs : List FieldDesc) (vs : List Nat) : Prop := List.Forall₂ (fun f v => v < 2 ^ f.width) fs vs

/-- The number of bits of a list of fields. -/
abbrev widthSum (fs : List FieldDesc) : Nat := (fs.map (·.width)).sum

/-- The container of a list of fields with the first at bit 0: the first value below the rest. -/
def packValue : List FieldDesc → List Nat → Nat
  | f :: fs, v :: vs => v + 2 ^ f.width * packValue fs vs
  | _, _ => 0

/-- The fields of a container with the first at bit 0. -/
def unpackValue : List FieldDesc → Nat → List Nat
  | f :: fs, c => c % 2 ^ f.width :: unpackValue fs (c / 2 ^ f.width)
  | [], _ => []

theorem packValue_lt {fs : List FieldDesc} {vs : List Nat} (h : Fit fs vs) : packValue fs vs < 2 ^ widthSum fs := by
  induction h with
  | nil => simp [packValue, widthSum]
  | @cons f v fs vs hv _ ih =>
    simp only [packValue, widthSum, List.map_cons, List.sum_cons, Nat.pow_add] at *
    calc v + 2 ^ f.width * packValue fs vs < 2 ^ f.width + 2 ^ f.width * packValue fs vs := by omega
      _ = 2 ^ f.width * (packValue fs vs + 1) := by ring
      _ ≤ _ := Nat.mul_le_mul_left _ ih

/-- Packing with the lowest field at offset `off` is shifting the container left by `off`. -/
theorem packFields_eq {fs : List FieldDesc} {vs : List Nat} (h : Fit fs vs) (off : Nat) :
    packFields off fs vs = 2 ^ off * packValue fs vs := by
  induction h generalizing off with
  | nil => simp [packFields, packValue]
  | @cons f v fs vs hv _ ih =>
    have hlow : 2 ^ off * v < 2 ^ (off + f.width) := by
      rw [Nat.pow_add]; exact Nat.mul_lt_mul_of_pos_left hv (Nat.two_pow_pos off)
    rw [packFields, ih, packValue, Nat.shiftLeft_eq, Nat.mul_comm v, Nat.or_comm,
      ← Nat.two_pow_add_eq_or_of_lt hlow]
    ring

/-- Reading with the lowest field at offset `off` is reading the container shifted right by `off`. -/
theorem unpackFields_eq (fs : List FieldDesc) (off c : Nat) :
    unpackFields off fs c = unpackValue fs (c / 2 ^ off) := by
  induction fs generalizing off with
  | nil => rfl
  | cons f fs ih => rw [unpackFields, ih, unpackValue, Nat.shiftRight_eq_div_pow, Nat.pow_add, Nat.div_div_eq_div_mul]

theorem unpackValue_length (fs : List FieldDesc) (c : Nat) : (unpackValue fs c).length = fs.length := by
  induction fs generalizing c with
  | nil => rfl
  | cons f fs ih => simp [unpackValue, ih]

theorem unpackValue_fit (fs : List FieldDesc) (c : Nat) : Fit fs (unpackValue fs c) := by
  induction fs generalizing c with
  | nil => exact .nil
  | cons f fs ih => exact .cons (Nat.mod_lt _ (Nat.two_pow_pos _)) (ih _)

theorem unpackValue_packValue {fs : List FieldDesc} {vs : List Nat} (h : Fit fs vs) :
    unpackValue fs (packValue fs vs) = vs := by
  induction h with
  | nil => rfl
  | @cons f v fs vs hv _ ih =>
    rw [packValue, unpackValue, Nat.add_mul_mod_self_left, Nat.mod_eq_of_lt hv,
      Nat.add_mul_div_left _ _ (Nat.two_pow_pos _), Nat.div_eq_of_lt hv, Nat.zero_add, ih]

theorem packValue_unpackValue (fs : List FieldDesc) {c : Nat} (h : c < 2 ^ widthSum fs) :
    packValue fs (unpackValue fs c) = c := by
  induction fs generalizing c with
  | nil => simp [widthSum] at h; simp [packValue, h]
  | cons f fs ih =>
    simp only [widthSum, List.map_cons, List.sum_cons, Nat.pow_add] at h
    rw [unpackValue, packValue, ih (Nat.div_lt_of_lt_mul h), Nat.mod_add_div]

/-- A field's value is the container divided by the weight of its offset, at its own width. -/
theorem unpackValue_eq_map (fs : List FieldDesc) (c : Nat) :
    unpackValue fs c = (List.range fs.length).map
      (fun i => c / 2 ^ widthSum (fs.take i) % 2 ^ (fs.map (·.width)).getD i 0) := by
  induction fs generalizing c with
  | nil => rfl
  | cons f fs ih =>
    rw [unpackValue, ih, List.length_cons, List.range_succ_eq_map]
    simp [widthSum, Function.comp_def, Nat.pow_add, Nat.div_div_eq_div_mul]

/-- The container is the sum of the values, each with the weight of its offset. -/
theorem packValue_eq_sum {fs : List FieldDesc} {vs : List Nat} (h : vs.length = fs.length) :
    packValue fs vs = ∑ i ∈ Finset.range fs.length, vs.getD i 0 * 2 ^ widthSum (fs.take i) := by
  induction fs generalizing vs with
  | nil => simp [packValue]
  | cons f fs ih =>
    obtain _ | ⟨v, vs⟩ := vs
    · simp at h
    · rw [packValue, ih (by simpa using h), List.length_cons, Finset.sum_range_succ', Finset.mul_sum, Nat.add_comm]
      congr 1
      · exact Finset.sum_congr rfl fun i _ => by simp [widthSum, Nat.pow_add]; ring
      · simp [widthSum]

/-- No field fails exactly when every value fits. -/
theorem firstBadField_eq_none {fs : List FieldDesc} {vs : List Nat} (i : Nat) (h : vs.length = fs.length) :
    firstBadField i fs vs = none ↔ Fit fs vs := by
  induction fs generalizing vs i with
  | nil => obtain rfl := List.eq_nil_of_length_eq_zero h; simp [firstBadField, Fit]
  | cons f fs ih =>
    obtain _ | ⟨v, vs⟩ := vs
    · simp at h
    · by_cases hv : v < 2 ^ f.width <;> simp [firstBadField, hv, ih (i + 1) (vs := vs) (by simpa using h)]

/-- The reported field is the first whose value does not fit. -/
theorem firstBadField_eq_some {fs : List FieldDesc} {vs : List Nat} {n i : Nat} {f : FieldDesc}
    (hf : fs[i]? = some f) (hlen : vs.length = fs.length)
    (hlow : ∀ j < i, vs.getD j 0 < 2 ^ (fs.map (·.width)).getD j 0) (hbad : 2 ^ f.width ≤ vs.getD i 0) :
    firstBadField n fs vs = some (overflowStatus f.enc, n + i) := by
  induction fs generalizing vs n i with
  | nil => simp at hf
  | cons g fs ih =>
    obtain _ | ⟨v, vs⟩ := vs
    · simp at hlen
    · cases i with
      | zero =>
        obtain rfl : g = f := by simpa using hf
        have : ¬ v < 2 ^ g.width := by simpa using hbad
        simp [firstBadField, this]
      | succ i =>
        have hv : v < 2 ^ g.width := by simpa using hlow 0 (Nat.succ_pos i)
        rw [firstBadField, if_pos hv, ih (n := n + 1) (i := i) (by simpa using hf) (by simpa using hlen)
          (fun j hj => by simpa using hlow (j + 1) (by omega)) (by simpa using hbad)]
        simp; omega

/-- In-range values, index by index, are values that fit. -/
theorem fit_iff_getD {fs : List FieldDesc} {vs : List Nat} (h : vs.length = fs.length) :
    Fit fs vs ↔ ∀ i < fs.length, vs.getD i 0 < 2 ^ (fs.map (·.width)).getD i 0 := by
  induction fs generalizing vs with
  | nil => obtain rfl := List.eq_nil_of_length_eq_zero h; simp [Fit]
  | cons f fs ih =>
    obtain _ | ⟨v, vs⟩ := vs
    · simp at h
    · have := ih (vs := vs) (by simpa using h)
      simp only [Fit, List.forall₂_cons, List.length_cons] at this ⊢
      rw [this, Nat.forall_lt_succ_left']
      simp

/-- `pack` on values that fit: the container. -/
theorem pack_of_fit {d : DescSet} {v : List Nat} (h : Fit d.fields v) : pack d v = .ok (packValue d.fields v) := by
  rw [pack, (firstBadField_eq_none 0 h.length_eq.symm).2 h, packFields_eq h]; simp

/-- `unpack` reads the fields of the container. -/
theorem unpack_eq (d : DescSet) (c : Nat) : unpack d c = unpackValue d.fields c := by
  rw [unpack, unpackFields_eq]; simp

theorem lcmdSet_wellFormed : descSetWellFormed lcmdSet = true := by decide
theorem lrspSet_wellFormed : descSetWellFormed lrspSet = true := by decide
theorem extSet_wellFormed : descSetWellFormed extSet = true := by decide

/-- A well-formed set's widths add up to its container width (40_bitfield.md R68 (b)). -/
theorem widthSum_of_wellFormed {d : DescSet} (h : descSetWellFormed d = true) : widthSum d.fields = d.bits := by
  simp only [descSetWellFormed, Bool.and_eq_true, beq_iff_eq] at h
  exact h.1.1.2

end Sys2Proof.Machine
end

