-- ==== Sys2Proof/Laws/Decode.lean ====
section
/-! SUPPORT. Each piece of the encoder is read back by the piece of the decoder that stands for it. -/

namespace Sys2Proof

theorem laneFits_iff {x : Nat} : laneFits x = true ↔ x < 2 ^ 32 := by simp [laneFits]

theorem takeLane_laneBytes {x : Nat} (h : laneFits x = true) (rest : List Byte) :
    takeLane (laneBytes x ++ rest) = .ok (x, rest) := by
  rw [laneFits_iff] at h
  simp only [laneBytes, List.cons_append, List.nil_append, takeLane, BitVec.toNat_ofNat, Nat.shiftRight_eq_div_pow]
  congr 2
  omega

/-- A lane that ends the record. -/
theorem takeLane_laneBytes_end {x : Nat} (h : laneFits x = true) : takeLane (laneBytes x) = .ok (x, []) := by
  simpa using takeLane_laneBytes h []

@[simp] theorem lanesBytes_nil : lanesBytes [] = [] := rfl

@[simp] theorem lanesBytes_cons (x : Nat) (xs : List Nat) : lanesBytes (x :: xs) = laneBytes x ++ lanesBytes xs := rfl

theorem lanesBytes_length (xs : List Nat) : (lanesBytes xs).length = 4 * xs.length := by
  induction xs with
  | nil => rfl
  | cons x xs ih => simp [ih, laneBytes]; omega

theorem takeLanes_lanesBytes {xs : List Nat} (h : ∀ x ∈ xs, laneFits x = true) (rest : List Byte) :
    takeLanes xs.length (lanesBytes xs ++ rest) = .ok (xs, rest) := by
  induction xs with
  | nil => rfl
  | cons x xs ih =>
    rw [lanesBytes_cons, List.append_assoc, List.length_cons, takeLanes, takeLane_laneBytes (h x (by simp))]
    simp only [ih fun y hy => h y (by simp [hy])]

theorem takeValues_bytes {xs : List Nat} (h : valuesFit xs = true) (rest : List Byte) :
    takeValues (laneBytes xs.length ++ (lanesBytes xs ++ rest)) = .ok (xs, rest) := by
  simp only [valuesFit, Bool.and_eq_true, decide_eq_true_eq, List.all_eq_true] at h
  rw [takeValues, takeLane_laneBytes (laneFits_iff.2 h.1)]
  simp [lanesBytes_length, takeLanes_lanesBytes h.2]

/-- A value list that ends the record. -/
theorem takeValues_bytes_end {xs : List Nat} (h : valuesFit xs = true) :
    takeValues (laneBytes xs.length ++ lanesBytes xs) = .ok (xs, []) := by
  simpa using takeValues_bytes h []

theorem takeBuffer_bufferBytes {buf : Option (List Byte)} (h : bufferFits buf = true) (rest : List Byte) :
    takeBuffer (bufferBytes buf ++ rest) = .ok (buf, rest) := by
  cases buf with
  | none => rfl
  | some bs =>
    have : laneFits bs.length = true := by simpa [bufferFits, laneFits] using h
    simp [bufferBytes, takeBuffer, takeLane_laneBytes this]

/-- A buffer that ends the record. -/
theorem takeBuffer_bufferBytes_end {buf : Option (List Byte)} (h : bufferFits buf = true) :
    takeBuffer (bufferBytes buf) = .ok (buf, []) := by
  simpa using takeBuffer_bufferBytes h []

/-! ### Enumerations and control bytes -/

@[simp] theorem CallbackType.ofCode_code (t : CallbackType) : CallbackType.ofCode t.code = t := by cases t <;> rfl
@[simp] theorem SleepMode.ofCode_code (t : SleepMode) : SleepMode.ofCode t.code = t := by cases t <;> rfl
@[simp] theorem FrameFormatVersion.ofCode_code (t : FrameFormatVersion) : FrameFormatVersion.ofCode t.code = t := by
  cases t <;> rfl
@[simp] theorem CallbackType.code_ofCode (c : BitVec 2) : (CallbackType.ofCode c).code = c := by
  revert c; decide
@[simp] theorem SleepMode.code_ofCode (c : BitVec 2) : (SleepMode.ofCode c).code = c := by
  revert c; decide
@[simp] theorem FrameFormatVersion.code_ofCode (c : BitVec 2) : (FrameFormatVersion.ofCode c).code = c := by
  revert c; decide

/-- The fields of a command byte are those it was built from (30_encoding.md R49). -/
theorem decodeLegacy_lcmdByte (ni : BitVec 2) (ct : CallbackType) (cp : Bool) (sm : SleepMode) :
    decodeLegacy (lcmdByte ni ct cp sm) =
      { kind := .command, networkIndex := ni, callbackType := ct, callbackPending := cp, sleepMode := sm } := by
  revert ni; cases ct <;> cases cp <;> cases sm <;> decide

/-- The fields of a response byte are those it was built from (30_encoding.md R50). -/
theorem decodeLegacy_lrspByte (ni : BitVec 2) (ct : CallbackType) (cp tr ov : Bool) :
    decodeLegacy (lrspByte ni ct cp tr ov) =
      { kind := .response, networkIndex := ni, callbackType := ct, callbackPending := cp, truncated := tr,
        overflow := ov } := by
  revert ni; cases ct <;> cases cp <;> cases tr <;> cases ov <;> decide

/-- The fields of an extended byte are those it was built from (30_encoding.md R51). -/
theorem decodeExt_extByteOf (se pe : Bool) (rs : BitVec 4) (ver : FrameFormatVersion) :
    decodeExt (extByteOf se pe rs ver) =
      { securityEnabled := se, paddingEnabled := pe, reserved := rs, frameFormatVersion := ver } := by
  revert rs; cases se <;> cases pe <;> cases ver <;> decide

/-- The bits of the 16-bit control word (30_encoding.md R54). -/
theorem controlWord_getLsbD (ext legacy : Byte) (i : Nat) :
    (controlWord ext legacy).getLsbD i = if i < 8 then legacy.getLsbD i else ext.getLsbD (i - 8) := by
  have := BitVec.getLsbD_append (x := ext) (y := legacy) (i := i)
  simpa [controlWord, Bool.cond_eq_ite] using this

end Sys2Proof
end

