-- ==== Sys2Proof/Laws/State.lean ====
section
/-! SUPPORT. One lemma per field for each operation that updates the state, so that no proof unfolds a
record update. -/

namespace Sys2Proof.Machine

variable (r : Result) (s : State) (route : Route) (p : DeliveryRecord)

/-! ### complete -/

@[simp] theorem complete_extEn : (complete r s).extEn = s.extEn := rfl
@[simp] theorem complete_regState : (complete r s).regState = s.regState := rfl
@[simp] theorem complete_regCount : (complete r s).regCount = s.regCount := rfl
@[simp] theorem complete_entries : (complete r s).entries = s.entries := rfl
@[simp] theorem complete_dlog : (complete r s).dlog = s.dlog := rfl
@[simp] theorem complete_q : (complete r s).q = s.q + 1 := rfl
@[simp] theorem complete_cfg : (complete r s).cfg = s.cfg := rfl
@[simp] theorem complete_port : (complete r s).port = s.port := rfl
@[simp] theorem complete_results : (complete r s).results = s.results ++ [r] := rfl
@[simp] theorem complete_block : (complete r s).block = s.block := rfl
@[simp] theorem entryAt_complete (i : Nat) : entryAt i (complete r s) = entryAt i s := rfl
@[simp] theorem find_complete (id : FrameId) : find id (complete r s) = find id s := rfl
@[simp] theorem dispatch_complete (id : FrameId) : dispatch id (complete r s) = dispatch id s := rfl

/-! ### deliver -/

@[simp] theorem deliver_extEn : (deliver route p s).extEn = s.extEn := by cases route <;> rfl
@[simp] theorem deliver_regState : (deliver route p s).regState = s.regState := by cases route <;> rfl
@[simp] theorem deliver_regCount : (deliver route p s).regCount = s.regCount := by cases route <;> rfl
@[simp] theorem deliver_entries : (deliver route p s).entries = s.entries := by cases route <;> rfl
@[simp] theorem deliver_q : (deliver route p s).q = s.q := by cases route <;> rfl
@[simp] theorem deliver_cfg : (deliver route p s).cfg = s.cfg := by cases route <;> rfl
@[simp] theorem deliver_port : (deliver route p s).port = s.port := by cases route <;> rfl
@[simp] theorem deliver_results : (deliver route p s).results = s.results := by cases route <;> rfl
@[simp] theorem deliver_block : (deliver route p s).block = s.block := by cases route <;> rfl

/-- What delivering can do to the log: nothing for NONE, one event for a port. -/
theorem deliver_dlog : (deliver route p s).dlog =
    s.dlog ++ (route.map (fun port => ({ port := port, record := p } : Delivery))).toList := by
  cases route <;> simp [deliver]

/-! ### takeReset -/

@[simp] theorem takeReset_extEn : (takeReset s).extEn = false := rfl
@[simp] theorem takeReset_regState : (takeReset s).regState = .building := rfl
@[simp] theorem takeReset_regCount : (takeReset s).regCount = 0 := rfl
@[simp] theorem takeReset_entries : (takeReset s).entries = List.replicate s.cfg.nReg {} := rfl
@[simp] theorem takeReset_dlog : (takeReset s).dlog = s.dlog := rfl
@[simp] theorem takeReset_q : (takeReset s).q = 0 := rfl
@[simp] theorem takeReset_cfg : (takeReset s).cfg = s.cfg := rfl
@[simp] theorem takeReset_port : (takeReset s).port = s.port := rfl
@[simp] theorem takeReset_results : (takeReset s).results = s.results := rfl

/-! ### powerOn -/

variable (c : Config)

@[simp] theorem powerOn_extEn : (State.powerOn c).extEn = false := rfl
@[simp] theorem powerOn_regState : (State.powerOn c).regState = .building := rfl
@[simp] theorem powerOn_regCount : (State.powerOn c).regCount = 0 := rfl
@[simp] theorem powerOn_entries : (State.powerOn c).entries = List.replicate c.nReg {} := rfl
@[simp] theorem powerOn_dlog : (State.powerOn c).dlog = [] := rfl
@[simp] theorem powerOn_q : (State.powerOn c).q = 0 := rfl
@[simp] theorem powerOn_cfg : (State.powerOn c).cfg = c := rfl
@[simp] theorem powerOn_port : (State.powerOn c).port = [] := rfl
@[simp] theorem powerOn_results : (State.powerOn c).results = [] := rfl

/-- An answer that completes with `r` is the completion of `r`. -/
theorem finish_eq : finish r s = .next (complete r s) := rfl

/-- `raise` completes with the status and the info and nothing else. -/
theorem raise_eq (st : Status) (info : Info) :
    raise st info s = .next (complete { status := st, info := info } s) := rfl

/-- Two completions of one state are equal only for equal results. -/
theorem results_append_inj {xs : List Result} {r r' : Result} (h : xs ++ [r] = xs ++ [r']) : r = r' := by
  simpa using h

end Sys2Proof.Machine
end

