-- ==== Sys2Proof/Laws/Envelope.lean ====
section
/-! SUPPORT. What the buffer accesses, the envelope parser, the envelope formatter and the header encoders
compute. -/

namespace Sys2Proof.Machine

/-! ### Buffers -/

/-- Writing at the end of a buffer appends. -/
theorem putByte_end {buf : List Byte} {off : Nat} (b : Byte) (h : off = buf.length) : putByte buf off b = buf ++ [b] := by
  subst h; simp [putByte]

theorem memWrite_one {buf : List Byte} {off : Nat} (v : Nat) (h : off = buf.length) :
    memWrite buf off 1 v = buf ++ [BitVec.ofNat 8 v] := by
  simp [memWrite, putByte_end _ h]

theorem memWrite_two {buf : List Byte} {off : Nat} (v : Nat) (h : off = buf.length) :
    memWrite buf off 2 v = buf ++ [BitVec.ofNat 8 v, BitVec.ofNat 8 (v / 256)] := by
  rw [memWrite, putByte_end _ h, memWrite_one _ (by simp [h])]
  simp [Nat.shiftRight_eq_div_pow]

theorem writePayload_end {buf : List Byte} {off : Nat} (ps : List Byte) (h : off = buf.length) :
    writePayload buf off ps = buf ++ ps := by
  induction ps generalizing buf off with
  | nil => simp [writePayload]
  | cons p ps ih =>
    rw [writePayload, memWrite_one _ h, ih (by simp [h])]
    simp

/-- The legacy frame (30_encoding.md R55). -/
theorem formatEnvelope_legacy (seq : Nat) (b : Byte) (id : Nat) (payload : List Byte) :
    formatEnvelope seq b none id payload =
      [BitVec.ofNat 8 seq, b, BitVec.ofNat 8 id, BitVec.ofNat 8 (id / 256)] ++ payload := by
  simp only [formatEnvelope]
  rw [memWrite_one (buf := []) (off := 0) seq rfl, memWrite_one _ (by simp), memWrite_two _ (by simp), writePayload_end _ (by simp)]
  simp

/-- The extended frame (30_encoding.md R55). -/
theorem formatEnvelope_extended (seq : Nat) (b x : Byte) (id : Nat) (payload : List Byte) :
    formatEnvelope seq b (some x) id payload =
      [BitVec.ofNat 8 seq, b, x, BitVec.ofNat 8 id, BitVec.ofNat 8 (id / 256)] ++ payload := by
  simp only [formatEnvelope]
  rw [memWrite_one (buf := []) (off := 0) seq rfl, memWrite_one (off := 1) _ (by simp),
    memWrite_one (off := 2) _ (by simp), memWrite_two _ (by simp), writePayload_end _ (by simp)]
  simp

/-! ### Parsing -/

theorem parseEnvelope_short {frame : List Byte} {len : Nat} {e : Bool} (h : len < 4 + e.toNat) :
    parseEnvelope frame len e = none := by
  simp [parseEnvelope, headerLen, h]

theorem ofNat_two_bytes (lo hi : Byte) : BitVec.ofNat 16 (lo.toNat + 2 ^ 8 * hi.toNat) = hi ++ lo := by
  apply BitVec.eq_of_toNat_eq
  have := lo.isLt; have := hi.isLt
  rw [BitVec.toNat_append, BitVec.toNat_ofNat, ← Nat.shiftLeft_add_eq_or_of_lt lo.isLt, Nat.shiftLeft_eq]
  omega

/-- The record of a legacy frame (43_envelope_dispatch.md R101). -/
theorem parseEnvelope_legacy (sq b lo hi : Byte) (payload : List Byte) :
    parseEnvelope (sq :: b :: lo :: hi :: payload) (payload.length + 4) false =
      some { seq := sq, legacy := decodeLegacy b, extPresent := false, ext := {}, id := hi ++ lo,
             plen := payload.length, payload := payload, rsv := rsvOf none (some b) } := by
  have := ofNat_two_bytes lo hi
  simp_all [parseEnvelope, headerLen, memRead]

/-- The record of an extended frame (43_envelope_dispatch.md R101). -/
theorem parseEnvelope_extended (sq b x lo hi : Byte) (payload : List Byte) :
    parseEnvelope (sq :: b :: x :: lo :: hi :: payload) (payload.length + 5) true =
      some { seq := sq, legacy := decodeLegacy b, extPresent := true, ext := decodeExt x, id := hi ++ lo,
             plen := payload.length, payload := payload, rsv := rsvOf (some x) (some b) } := by
  have := ofNat_two_bytes lo hi
  simp_all [parseEnvelope, headerLen, memRead]

/-- A frame with a whole legacy header is one. -/
theorem exists_legacy_header {bytes : List Byte} (h : 4 ≤ bytes.length) :
    ∃ sq b lo hi payload, bytes = sq :: b :: lo :: hi :: payload := by
  match bytes with
  | sq :: b :: lo :: hi :: payload => exact ⟨sq, b, lo, hi, payload, rfl⟩
  | [] | [_] | [_, _] | [_, _, _] => simp at h

/-- A frame with a whole extended header is one. -/
theorem exists_extended_header {bytes : List Byte} (h : 5 ≤ bytes.length) :
    ∃ sq b x lo hi payload, bytes = sq :: b :: x :: lo :: hi :: payload := by
  match bytes with
  | sq :: b :: x :: lo :: hi :: payload => exact ⟨sq, b, x, lo, hi, payload, rfl⟩
  | [] | [_] | [_, _] | [_, _, _] | [_, _, _, _] => simp at h

/-- What every parsed record meets: its length, its payload, and no extended fields in the legacy format. -/
theorem parseEnvelope_facts {bytes : List Byte} {e : Bool} {p : DeliveryRecord}
    (h : parseEnvelope bytes bytes.length e = some p) :
    p.plen = p.payload.length ∧ p.extPresent = e ∧ (e = false → p.ext = {}) ∧
      headerLen p.extPresent + p.plen = bytes.length := by
  cases e with
  | false =>
    by_cases hl : 4 ≤ bytes.length
    · obtain ⟨sq, b, lo, hi, payload, rfl⟩ := exists_legacy_header hl
      simp only [List.length_cons] at h
      rw [parseEnvelope_legacy] at h
      cases h
      simp [headerLen]; omega
    · rw [parseEnvelope_short (by simp; omega)] at h; cases h
  | true =>
    by_cases hl : 5 ≤ bytes.length
    · obtain ⟨sq, b, x, lo, hi, payload, rfl⟩ := exists_extended_header hl
      simp only [List.length_cons] at h
      rw [parseEnvelope_extended] at h
      cases h
      simp [headerLen]; omega
    · rw [parseEnvelope_short (by simp; omega)] at h; cases h

/-! ### Header encoders -/

/-- The failing operand of `encode_cmd`, or the byte (41_frame_control.md R81). -/
theorem encodeCmd_eq (ni ct cp sm : Nat) : encodeCmd ni ct cp sm =
    if 4 ≤ ni then .error (.fieldOverflow, .networkIndex)
    else if 4 ≤ ct then .error (.unknownEnumValue, .callbackType)
    else if 2 ≤ cp then .error (.fieldOverflow, .callbackPending)
    else if 4 ≤ sm then .error (.unknownEnumValue, .sleepMode)
    else .ok (BitVec.ofNat 8 (2 * ni + 8 * ct + 32 * cp + 64 * sm)) := by
  by_cases h1 : ni < 4
  · by_cases h2 : ct < 4
    · by_cases h3 : cp < 2
      · by_cases h4 : sm < 4
        · interval_cases ni <;> interval_cases ct <;> interval_cases cp <;> interval_cases sm <;> rfl
        · simp [encodeCmd, packByte, pack, firstBadField, lcmdSet, overflowStatus, callbackTypeVariants,
            sleepModeVariants, h1, h2, h3, h4, Nat.not_le.2 h1, Nat.not_le.2 h2, Nat.not_le.2 h3, Nat.not_lt.1 h4]
      · simp [encodeCmd, packByte, pack, firstBadField, lcmdSet, overflowStatus, callbackTypeVariants,
          h1, h2, h3, Nat.not_le.2 h1, Nat.not_le.2 h2, Nat.not_lt.1 h3]
    · simp [encodeCmd, packByte, pack, firstBadField, lcmdSet, overflowStatus, callbackTypeVariants,
        h1, h2, Nat.not_le.2 h1, Nat.not_lt.1 h2]
  · simp [encodeCmd, packByte, pack, firstBadField, lcmdSet, overflowStatus, h1, Nat.not_lt.1 h1]

/-- The failing operand of `encode_rsp`, or the byte (41_frame_control.md R82). -/
theorem encodeRsp_eq (ni ct cp tr ov : Nat) : encodeRsp ni ct cp tr ov =
    if 4 ≤ ni then .error (.fieldOverflow, .networkIndex)
    else if 4 ≤ ct then .error (.unknownEnumValue, .callbackType)
    else if 2 ≤ cp then .error (.fieldOverflow, .callbackPending)
    else if 2 ≤ tr then .error (.fieldOverflow, .truncated)
    else if 2 ≤ ov then .error (.fieldOverflow, .overflow)
    else .ok (BitVec.ofNat 8 (1 + 2 * ni + 8 * ct + 32 * cp + 64 * tr + 128 * ov)) := by
  by_cases h1 : ni < 4
  · by_cases h2 : ct < 4
    · by_cases h3 : cp < 2
      · by_cases h4 : tr < 2
        · by_cases h5 : ov < 2
          · interval_cases ni <;> interval_cases ct <;> interval_cases cp <;> interval_cases tr <;>
              interval_cases ov <;> rfl
          · simp [encodeRsp, packByte, pack, firstBadField, lrspSet, overflowStatus, callbackTypeVariants,
              h1, h2, h3, h4, h5, Nat.not_le.2 h1, Nat.not_le.2 h2, Nat.not_le.2 h3, Nat.not_le.2 h4, Nat.not_lt.1 h5]
        · simp [encodeRsp, packByte, pack, firstBadField, lrspSet, overflowStatus, callbackTypeVariants,
            h1, h2, h3, h4, Nat.not_le.2 h1, Nat.not_le.2 h2, Nat.not_le.2 h3, Nat.not_lt.1 h4]
      · simp [encodeRsp, packByte, pack, firstBadField, lrspSet, overflowStatus, callbackTypeVariants,
          h1, h2, h3, Nat.not_le.2 h1, Nat.not_le.2 h2, Nat.not_lt.1 h3]
    · simp [encodeRsp, packByte, pack, firstBadField, lrspSet, overflowStatus, callbackTypeVariants,
        h1, h2, Nat.not_le.2 h1, Nat.not_lt.1 h2]
  · simp [encodeRsp, packByte, pack, firstBadField, lrspSet, overflowStatus, h1, Nat.not_lt.1 h1]

/-- The failing operand of `encode_ext`, or the byte (41_frame_control.md R83). -/
theorem encodeExt_eq (se pe rs ver : Nat) : encodeExt se pe rs ver =
    if 2 ≤ se then .error (.fieldOverflow, .securityEnabled)
    else if 2 ≤ pe then .error (.fieldOverflow, .paddingEnabled)
    else if 16 ≤ rs then .error (.fieldOverflow, .reserved)
    else if 4 ≤ ver then .error (.unknownEnumValue, .frameFormatVersion)
    else .ok (BitVec.ofNat 8 (se + 2 * pe + 4 * rs + 64 * ver)) := by
  by_cases h1 : se < 2
  · by_cases h2 : pe < 2
    · by_cases h3 : rs < 16
      · by_cases h4 : ver < 4
        · interval_cases se <;> interval_cases pe <;> interval_cases rs <;> interval_cases ver <;> rfl
        · simp [encodeExt, packByte, pack, firstBadField, extSet, overflowStatus, frameFormatVersionVariants,
            h1, h2, h3, h4, Nat.not_le.2 h1, Nat.not_le.2 h2, Nat.not_le.2 h3, Nat.not_lt.1 h4]
      · simp [encodeExt, packByte, pack, firstBadField, extSet, overflowStatus,
          h1, h2, h3, Nat.not_le.2 h1, Nat.not_le.2 h2, Nat.not_lt.1 h3]
    · simp [encodeExt, packByte, pack, firstBadField, extSet, overflowStatus,
        h1, h2, Nat.not_le.2 h1, Nat.not_lt.1 h2]
  · simp [encodeExt, packByte, pack, firstBadField, extSet, overflowStatus, h1, Nat.not_lt.1 h1]

/-- A header that encodes: every operand that is read is in range. -/
theorem encodeHeader_ok {e : Bool} {o : EnvelopeOperands} {b : Byte} {x : Option Byte}
    (h : encodeHeader e o = .ok (b, x)) :
    o.seq < 2 ^ 8 ∧ o.kind < 2 ∧ o.id < 2 ^ 16 ∧ encodeLegacy o = .ok b ∧ encodeExtended e o = .ok x := by
  unfold encodeHeader at h
  split at h
  · cases h
  · split at h
    · cases h
    · split at h
      · cases h
      · split at h
        · cases h
        · split at h
          · cases h
          · simp_all

/-! ### ENV_DECODE of a frame that parses -/

/-- A parsed frame is dispatched and delivered (43_envelope_dispatch.md R103). -/
theorem execEnvDecode_of_parsed {s : State} {bytes : List Byte} {p : DeliveryRecord}
    (hl : bytes.length ≤ s.cfg.maxFrame) (hp : parseEnvelope bytes bytes.length s.extEn = some p) :
    execEnvDecode bytes.length (some bytes) s =
      finish (decodeResult p (dispatch p.id s).1 (dispatch p.id s).2) (deliver (dispatch p.id s).2 p s) := by
  simp only [execEnvDecode]
  rw [if_neg (by omega), if_neg (by simp), hp]

end Sys2Proof.Machine
end

