-- ==== Sys2Proof/Laws/PerInstr.lean ====
section
/-! SUPPORT. Family OpCode: the word of every instruction begins as its row of spec/opcode_table.json
says. -/

namespace Sys2Proof.Laws.OpCode

/-- The word begins with the record `op`. -/
abbrev Begins (i : Instr) (op : Byte) : Prop := ∃ bytes, encode i = .request (op :: bytes)

/-- A request's word begins with its op code (30_encoding.md R60), an undefined op code with itself
(R61); a wire row's byte has the fixed bits of its row (R49 to R51). -/
def Statement (i : Instr) : Prop :=
  match i with
  | .cfgWrite _ _ => Begins i 0x01
  | .cfgRead _ => Begins i 0x02
  | .bfPack _ _ => Begins i 0x03
  | .bfUnpack _ _ => Begins i 0x04
  | .fcEncCmd _ _ _ _ => Begins i 0x05
  | .fcEncRsp _ _ _ _ _ => Begins i 0x06
  | .fcDec _ => Begins i 0x07
  | .fcEncExt _ _ _ _ => Begins i 0x08
  | .fcDecExt _ => Begins i 0x09
  | .envEncode _ _ => Begins i 0x0A
  | .envDecode _ _ => Begins i 0x0B
  | .regRegister _ _ _ => Begins i 0x0C
  | .regLookup _ => Begins i 0x0D
  | .regSeal => Begins i 0x0E
  | .regClear => Begins i 0x0F
  | .illegal op => Begins i op
  | .wLcmd _ _ _ _ => ∃ b : Byte, encode i = .legacyByte b ∧ b.getLsbD 0 = false
  | .wLrsp _ _ _ _ _ => ∃ b : Byte, encode i = .legacyByte b ∧ b.getLsbD 0 = true
  | .wExt _ _ _ _ => ∃ x : Byte, encode i = .extByte x

theorem cfgWrite (reg value : Nat) : Statement (.cfgWrite reg value) := ⟨_, rfl⟩
theorem cfgRead (reg : Nat) : Statement (.cfgRead reg) := ⟨_, rfl⟩
theorem bfPack (dset : Nat) (values : List Nat) : Statement (.bfPack dset values) := ⟨_, rfl⟩
theorem bfUnpack (dset c : Nat) : Statement (.bfUnpack dset c) := ⟨_, rfl⟩
theorem fcEncCmd (ni ct cp sm : Nat) : Statement (.fcEncCmd ni ct cp sm) := ⟨_, rfl⟩
theorem fcEncRsp (ni ct cp tr ov : Nat) : Statement (.fcEncRsp ni ct cp tr ov) := ⟨_, rfl⟩
theorem fcDec (b : Nat) : Statement (.fcDec b) := ⟨_, rfl⟩
theorem fcEncExt (se pe rs ver : Nat) : Statement (.fcEncExt se pe rs ver) := ⟨_, rfl⟩
theorem fcDecExt (x : Nat) : Statement (.fcDecExt x) := ⟨_, rfl⟩
theorem envEncode (o : EnvelopeOperands) (payload : Option (List Byte)) : Statement (.envEncode o payload) := ⟨_, rfl⟩
theorem envDecode (len : Nat) (frame : Option (List Byte)) : Statement (.envDecode len frame) := ⟨_, rfl⟩
theorem regRegister (id sel name : Nat) : Statement (.regRegister id sel name) := ⟨_, rfl⟩
theorem regLookup (id : Nat) : Statement (.regLookup id) := ⟨_, rfl⟩
theorem regSeal : Statement .regSeal := ⟨_, rfl⟩
theorem regClear : Statement .regClear := ⟨_, rfl⟩
theorem illegal (op : Byte) : Statement (.illegal op) := ⟨_, rfl⟩

theorem wLcmd (ni : BitVec 2) (ct : CallbackType) (cp : Bool) (sm : SleepMode) : Statement (.wLcmd ni ct cp sm) := by
  refine ⟨_, rfl, ?_⟩
  revert ni; cases ct <;> cases cp <;> cases sm <;> decide

theorem wLrsp (ni : BitVec 2) (ct : CallbackType) (cp tr ov : Bool) : Statement (.wLrsp ni ct cp tr ov) := by
  refine ⟨_, rfl, ?_⟩
  revert ni; cases ct <;> cases cp <;> cases tr <;> cases ov <;> decide

theorem wExt (se pe : Bool) (rs : BitVec 4) (ver : FrameFormatVersion) : Statement (.wExt se pe rs ver) := ⟨_, rfl⟩

end Sys2Proof.Laws.OpCode
end

