-- ==== Sys2Proof/Laws/Registry.lean ====
section
/-! SUPPORT. What `find`, `entryAt` and `dispatch` answer, and how the table changes. -/

namespace Sys2Proof.Machine

/-- An index past the table's end reads as the invalid entry. -/
theorem entryAt_of_length_le {i : Nat} {s : State} (h : s.entries.length ≤ i) : entryAt i s = {} := by
  simp [entryAt, List.getElem?_eq_none h]

theorem lt_length_of_valid {i : Nat} {s : State} (h : (entryAt i s).valid = true) : i < s.entries.length := by
  by_contra hc
  rw [entryAt_of_length_le (Nat.le_of_not_lt hc)] at h
  exact absurd h (by decide)

theorem entryAt_eq_getElem {i : Nat} {s : State} (h : i < s.entries.length) : entryAt i s = s.entries[i] := by
  simp [entryAt, h]

/-- The search fails exactly when no index below REG_COUNT holds the id. -/
theorem find_eq_none_iff {id : FrameId} {s : State} : find id s = none ↔ ¬ s.Registered id := by
  simp only [find, List.findIdx?_eq_none_iff, State.Registered, State.HoldsAt, not_exists]
  constructor
  · rintro h i ⟨hi, hv, hid⟩
    have hl := lt_length_of_valid hv
    have := h (s.entries[i]) (List.mem_take_iff_getElem.2 ⟨i, by omega, rfl⟩)
    rw [entryAt_eq_getElem hl] at hv hid
    simp [hv, hid] at this
  · intro h e he
    obtain ⟨i, hi, rfl⟩ := List.mem_take_iff_getElem.1 he
    have := h i
    rw [entryAt_eq_getElem (by omega)] at this
    by_contra hc
    simp at hc
    exact this ⟨by omega, hc.1, hc.2⟩

/-- An index the search answers holds the id. -/
theorem holdsAt_of_find {id : FrameId} {s : State} {i : Nat} (h : find id s = some i) : s.HoldsAt i id := by
  obtain ⟨hi, hp, -⟩ := List.findIdx?_eq_some_iff_getElem.1 h
  have hl : i < s.regCount ∧ i < s.entries.length := by simpa using hi
  rw [State.HoldsAt, entryAt_eq_getElem hl.2]
  simpa [hl.1] using hp

theorem find_isSome_iff {id : FrameId} {s : State} : (find id s).isSome = true ↔ s.Registered id := by
  rw [← not_iff_not, ← find_eq_none_iff]; simp

/-- In the invariant an id is held at one index at most. -/
theorem State.Inv.holdsAt_unique {s : State} (h : s.Inv) {id : FrameId} {i j : Nat} (hi : s.HoldsAt i id)
    (hj : s.HoldsAt j id) : i = j :=
  h.unique i (Nat.lt_of_lt_of_le hi.1 h.count) j (Nat.lt_of_lt_of_le hj.1 h.count) hi.2.1 hj.2.1
    (hi.2.2.trans hj.2.2.symm)

/-- In the invariant the search answers the index that holds the id. -/
theorem State.Inv.find_eq_some_iff {s : State} (h : s.Inv) {id : FrameId} {i : Nat} :
    find id s = some i ↔ s.HoldsAt i id := by
  refine ⟨holdsAt_of_find, fun hi => ?_⟩
  obtain ⟨j, hj⟩ := Option.isSome_iff_exists.1 (find_isSome_iff.2 ⟨i, hi⟩)
  rw [hj, h.holdsAt_unique (holdsAt_of_find hj) hi]

/-- The three answers of dispatch (43_envelope_dispatch.md R102). -/
theorem dispatch_cases (id : FrameId) (s : State) :
    (s.regState = .aborted ∧ dispatch id s = (.registryAborted, none)) ∨
    (s.regState ≠ .aborted ∧ find id s = none ∧ dispatch id s = (.unknownFrameId, some .unknown)) ∨
    (s.regState ≠ .aborted ∧ ∃ i, find id s = some i ∧ dispatch id s = (.ok, some (.codec (entryAt i s).sel))) := by
  unfold dispatch
  cases hr : s.regState <;> cases hf : find id s <;> simp

theorem dispatch_of_aborted {id : FrameId} {s : State} (h : s.regState = .aborted) :
    dispatch id s = (.registryAborted, none) := by simp [dispatch, h]

theorem dispatch_of_not_registered {id : FrameId} {s : State} (h : s.regState ≠ .aborted)
    (hn : ¬ s.Registered id) : dispatch id s = (.unknownFrameId, some .unknown) := by
  have := find_eq_none_iff.2 hn
  unfold dispatch; cases hr : s.regState <;> simp_all

theorem dispatch_of_find {id : FrameId} {s : State} {i : Nat} (h : s.regState ≠ .aborted)
    (hf : find id s = some i) : dispatch id s = (.ok, some (.codec (entryAt i s).sel)) := by
  unfold dispatch; cases hr : s.regState <;> simp_all

/-- Nothing is registered where no entry counts. -/
theorem not_registered_of_count_zero {s : State} (h : s.regCount = 0) (id : FrameId) : ¬ s.Registered id := by
  rintro ⟨i, hi, -⟩; omega

/-- The state REG_REGISTER leaves when it adds an entry (42_registry.md R93). -/
def insertEntry (e : Entry) (s : State) : State :=
  { s with entries := s.entries.set s.regCount e, regCount := s.regCount + 1 }

@[simp] theorem insertEntry_regCount (e : Entry) (s : State) : (insertEntry e s).regCount = s.regCount + 1 := rfl
@[simp] theorem insertEntry_cfg (e : Entry) (s : State) : (insertEntry e s).cfg = s.cfg := rfl
@[simp] theorem insertEntry_dlog (e : Entry) (s : State) : (insertEntry e s).dlog = s.dlog := rfl
@[simp] theorem insertEntry_regState (e : Entry) (s : State) : (insertEntry e s).regState = s.regState := rfl
@[simp] theorem insertEntry_extEn (e : Entry) (s : State) : (insertEntry e s).extEn = s.extEn := rfl
@[simp] theorem insertEntry_entries (e : Entry) (s : State) :
    (insertEntry e s).entries = s.entries.set s.regCount e := rfl

/-- Inserting leaves every other entry. -/
theorem entryAt_insertEntry_ne {e : Entry} {s : State} {i : Nat} (h : i ≠ s.regCount) :
    entryAt i (insertEntry e s) = entryAt i s := by
  simp [entryAt, List.getElem?_set_ne (Ne.symm h)]

/-- Inserting puts the entry at REG_COUNT. -/
theorem entryAt_insertEntry_self {e : Entry} {s : State} (h : s.regCount < s.entries.length) :
    entryAt s.regCount (insertEntry e s) = e := by
  simp [entryAt, h]

/-! ### The registry functions read the block state alone -/

theorem find_of_block_eq {s t : State} (h : s.block = t.block) (id : FrameId) : find id s = find id t := by
  simp only [State.block, BlockState.mk.injEq] at h
  simp only [find, h.2.2.1, h.2.2.2]

theorem entryAt_of_block_eq {s t : State} (h : s.block = t.block) (i : Nat) : entryAt i s = entryAt i t := by
  simp only [State.block, BlockState.mk.injEq] at h
  simp only [entryAt, h.2.2.2]

theorem dispatch_of_block_eq {s t : State} (h : s.block = t.block) (id : FrameId) : dispatch id s = dispatch id t := by
  have hr : s.regState = t.regState := by simp only [State.block, BlockState.mk.injEq] at h; exact h.2.1
  simp only [dispatch, hr, find_of_block_eq h, entryAt_of_block_eq h]

end Sys2Proof.Machine
end

