-- ==== Sys2Proof/Laws/Step.lean ====
section
/-! SUPPORT. What one instruction can do: `Effect` lists every way a request can change the block before it
completes, and `exec_effect` says that there is no other. -/

namespace Sys2Proof.Machine

/-- `Effect i s r s'`: serving `i` in `s` returns the result `r` and leaves the block in `s'` (before `q`
and the results advance). -/
inductive Effect (i : Instr) (s : State) : Result → State → Prop where
  /-- Nothing is written. The status is no DuplicateFrameId, and UnknownFrameId only of a lookup; only a
  lookup returns a name. -/
  | quiet (r : Result) (hdup : r.status ≠ .duplicateFrameId)
      (hunk : r.status = .unknownFrameId → ∀ len frame, i ≠ .envDecode len frame)
      (hname : (∀ id, i ≠ .regLookup id) → r.name = 0) (hseal : i = .regSeal → s.regState = .aborted)
      (hclear : i ≠ .regClear)
      (hok : ∀ id sel name, i = .regRegister id sel name → r.status ≠ .ok ∧
        ¬ (s.regState = .building ∧ id < 2 ^ 16 ∧ sel < 2 ^ s.cfg.wSel ∧ name < 2 ^ s.cfg.wName ∧
          s.Registered (BitVec.ofNat 16 id))) : Effect i s r s
  /-- CFG_WRITE of CTRL. -/
  | selecting (value : Nat) (hv : value < 2) (hi : i = .cfgWrite 0 value) : Effect i s {} { s with extEn := value == 1 }
  /-- REG_REGISTER of an id that is registered. -/
  | aborting (id sel name : Nat) (hi : i = .regRegister id sel name) (hst : s.regState = .building)
      (hid : id < 2 ^ 16) (hsel : sel < 2 ^ s.cfg.wSel) (hname : name < 2 ^ s.cfg.wName)
      (hreg : s.Registered (BitVec.ofNat 16 id)) :
      Effect i s { status := .duplicateFrameId, info := .operand .id } { s with regState := .aborted }
  /-- REG_REGISTER of a new id. -/
  | inserting (id sel name : Nat) (hi : i = .regRegister id sel name) (hst : s.regState = .building)
      (hid : id < 2 ^ 16) (hsel : sel < 2 ^ s.cfg.wSel) (hname : name < 2 ^ s.cfg.wName)
      (hreg : ¬ s.Registered (BitVec.ofNat 16 id)) (hfull : s.regCount ≠ s.cfg.nReg) :
      Effect i s { index := s.regCount }
        (insertEntry { valid := true, id := BitVec.ofNat 16 id, sel := sel, name := name } s)
  /-- REG_SEAL outside ABORTED. -/
  | sealing (hi : i = .regSeal) (hst : s.regState ≠ .aborted) : Effect i s {} { s with regState := .sealed }
  /-- REG_CLEAR. -/
  | clearing (hi : i = .regClear) :
      Effect i s {} { s with entries := List.replicate s.cfg.nReg {}, regCount := 0, regState := .building }
  /-- ENV_DECODE of a frame that is delivered. -/
  | delivering (bytes : List Byte) (p : DeliveryRecord) (st : Status) (port : OutPort)
      (hi : i = .envDecode bytes.length (some bytes)) (hlen : bytes.length ≤ s.cfg.maxFrame)
      (hp : parseEnvelope bytes bytes.length s.extEn = some p) (hd : dispatch p.id s = (st, some port)) :
      Effect i s (decodeResult p st (some port)) { s with dlog := s.dlog ++ [{ port := port, record := p }] }

/-- Every next state is the completion of one of the effects. -/
def Explained (i : Instr) (s : State) (a : Answer) : Prop :=
  match a with
  | .next t => ∃ r s', Effect i s r s' ∧ t = complete r s'
  | .fault _ => False
  | .refused _ => True

theorem explained_finish {i : Instr} {s s' : State} {r : Result} (h : Effect i s r s') : Explained i s (finish r s') :=
  ⟨r, s', h, rfl⟩

theorem execCfgWrite_explained (reg value : Nat) (s : State) :
    Explained (.cfgWrite reg value) s (execCfgWrite reg value s) := by
  unfold execCfgWrite
  split
  · exact explained_finish (.quiet _ (by simp) (by simp) (by simp) (by simp) (by simp) (by simp))
  · split
    · split
      · exact explained_finish (.quiet _ (by simp) (by simp) (by simp) (by simp) (by simp) (by simp))
      · rename_i h hv; exact explained_finish (.selecting value (by omega) (by rw [h]))
    · exact explained_finish (.quiet _ (by simp) (by simp) (by simp) (by simp) (by simp) (by simp))

theorem execCfgRead_explained (reg : Nat) (s : State) : Explained (.cfgRead reg) s (execCfgRead reg s) := by
  unfold execCfgRead
  repeat' split
  all_goals exact explained_finish (.quiet _ (by simp) (by simp) (by simp) (by simp) (by simp) (by simp))

/-- The codec's own errors are FieldOverflow and UnknownEnumValue. -/
theorem firstBadField_status {n : Nat} {fs : List FieldDesc} {vs : List Nat} {e : Status × Nat}
    (h : firstBadField n fs vs = some e) : e.1 = .fieldOverflow ∨ e.1 = .unknownEnumValue := by
  induction fs generalizing n vs with
  | nil => simp [firstBadField] at h
  | cons f fs ih =>
    cases vs with
    | nil => simp [firstBadField] at h
    | cons v vs =>
      rw [firstBadField] at h
      split at h
      · exact ih h
      · cases h; cases f.enc <;> simp [overflowStatus]

theorem pack_error_status {d : DescSet} {v : List Nat} {e : Status × Nat} (h : pack d v = .error e) :
    e.1 = .fieldOverflow ∨ e.1 = .unknownEnumValue := by
  unfold pack at h
  split at h
  · cases h; exact firstBadField_status ‹_›
  · cases h

theorem packByte_error_status {d : DescSet} {names : List OperandName} {v : List Nat} {e : Status × OperandName}
    (h : packByte d names v = .error e) : e.1 = .fieldOverflow ∨ e.1 = .unknownEnumValue := by
  unfold packByte at h
  split at h
  · cases h; exact pack_error_status ‹_›
  · cases h

/-- A quiet completion of an operation that is neither of the registry nor a frame decode. -/
theorem explained_plain {i : Instr} {s : State} {r : Result} (hst : r.status ≠ .duplicateFrameId)
    (hn : r.name = 0) (hu : ∀ len frame, i ≠ .envDecode len frame) (hs : i ≠ .regSeal) (hc : i ≠ .regClear)
    (hr : ∀ id sel name, i ≠ .regRegister id sel name) : Explained i s (finish r s) :=
  explained_finish (.quiet r hst (fun _ => hu) (fun _ => hn) (fun h => absurd h hs) hc
    (fun id sel name h => absurd h (hr id sel name)))

theorem execBfPack_explained (dset : Nat) (values : List Nat) (s : State) :
    Explained (.bfPack dset values) s (execBfPack dset values s) := by
  unfold execBfPack
  split
  · exact explained_plain (by simp) rfl (by simp) (by simp) (by simp) (by simp)
  · split
    · exact explained_plain (by simp) rfl (by simp) (by simp) (by simp) (by simp)
    · split
      · exact explained_plain (by simp) rfl (by simp) (by simp) (by simp) (by simp)
      · split
        · rename_i h
          exact explained_plain (by rcases pack_error_status h with h | h <;> simp_all) rfl (by simp) (by simp) (by simp)
            (by simp)
        · exact explained_plain (by simp) rfl (by simp) (by simp) (by simp) (by simp)

theorem execBfUnpack_explained (dset c : Nat) (s : State) : Explained (.bfUnpack dset c) s (execBfUnpack dset c s) := by
  unfold execBfUnpack
  split
  · exact explained_plain (by simp) rfl (by simp) (by simp) (by simp) (by simp)
  · split
    · exact explained_plain (by simp) rfl (by simp) (by simp) (by simp) (by simp)
    · split
      · exact explained_plain (by simp) rfl (by simp) (by simp) (by simp) (by simp)
      · exact explained_plain (by simp) rfl (by simp) (by simp) (by simp) (by simp)

theorem execFcEncCmd_explained (ni ct cp sm : Nat) (s : State) :
    Explained (.fcEncCmd ni ct cp sm) s (execFcEncCmd ni ct cp sm s) := by
  unfold execFcEncCmd
  split
  · rename_i h
    exact explained_plain (by rcases packByte_error_status h with h | h <;> simp [h]) rfl (by simp) (by simp) (by simp)
      (by simp)
  · exact explained_plain (by simp) rfl (by simp) (by simp) (by simp) (by simp)

theorem execFcEncRsp_explained (ni ct cp tr ov : Nat) (s : State) :
    Explained (.fcEncRsp ni ct cp tr ov) s (execFcEncRsp ni ct cp tr ov s) := by
  unfold execFcEncRsp
  split
  · rename_i h
    exact explained_plain (by rcases packByte_error_status h with h | h <;> simp [h]) rfl (by simp) (by simp) (by simp)
      (by simp)
  · exact explained_plain (by simp) rfl (by simp) (by simp) (by simp) (by simp)

theorem execFcEncExt_explained (se pe rs ver : Nat) (s : State) :
    Explained (.fcEncExt se pe rs ver) s (execFcEncExt se pe rs ver s) := by
  unfold execFcEncExt
  split
  · rename_i h
    exact explained_plain (by rcases packByte_error_status h with h | h <;> simp [h]) rfl (by simp) (by simp) (by simp)
      (by simp)
  · exact explained_plain (by simp) rfl (by simp) (by simp) (by simp) (by simp)

theorem execFcDec_explained (b : Nat) (s : State) : Explained (.fcDec b) s (execFcDec b s) := by
  unfold execFcDec
  split <;> exact explained_plain (by simp) rfl (by simp) (by simp) (by simp) (by simp)

theorem execFcDecExt_explained (x : Nat) (s : State) : Explained (.fcDecExt x) s (execFcDecExt x s) := by
  unfold execFcDecExt
  split <;> exact explained_plain (by simp) rfl (by simp) (by simp) (by simp) (by simp)

/-- The header encoder's errors are FieldOverflow and UnknownEnumValue. -/
theorem encodeHeader_error_status {e : Bool} {o : EnvelopeOperands} {er : Status × OperandName}
    (h : encodeHeader e o = .error er) : er.1 = .fieldOverflow ∨ er.1 = .unknownEnumValue := by
  unfold encodeHeader at h
  split at h
  · cases h; exact .inl rfl
  · split at h
    · cases h; exact .inl rfl
    · split at h
      · rename_i hl
        cases h
        unfold encodeLegacy at hl
        split at hl <;> exact packByte_error_status hl
      · split at h
        · rename_i hx
          cases h
          unfold encodeExtended at hx
          split at hx
          · split at hx
            · cases hx; exact packByte_error_status ‹_›
            · cases hx
          · cases hx
        · split at h
          · cases h; exact .inl rfl
          · cases h

theorem execEnvEncode_explained (o : EnvelopeOperands) (payload : Option (List Byte)) (s : State) :
    Explained (.envEncode o payload) s (execEnvEncode o payload s) := by
  unfold execEnvEncode
  split
  · exact explained_plain (by simp) rfl (by simp) (by simp) (by simp) (by simp)
  · split
    · rename_i h
      exact explained_plain (by rcases encodeHeader_error_status h with h | h <;> simp [h]) rfl (by simp) (by simp)
        (by simp) (by simp)
    · split
      · trivial
      · exact explained_plain (by simp) rfl (by simp) (by simp) (by simp) (by simp)

theorem execEnvDecode_explained (len : Nat) (frame : Option (List Byte)) (s : State) :
    Explained (.envDecode len frame) s (execEnvDecode len frame s) := by
  unfold execEnvDecode
  split
  · trivial
  · rename_i hlen
    split
    · exact explained_finish (.quiet _ (by simp) (by simp) (by simp) (by simp) (by simp) (by simp))
    · rename_i bytes
      split
      · exact explained_finish (.quiet _ (by simp) (by simp) (by simp) (by simp) (by simp) (by simp))
      · rename_i hb
        obtain rfl : len = bytes.length := by simpa using hb
        split
        · exact explained_finish (.quiet _ (by simp) (by simp) (by simp) (by simp) (by simp) (by simp))
        · rename_i p hp
          rcases dispatch_cases p.id s with ⟨-, hd⟩ | ⟨-, -, hd⟩ | ⟨-, j, -, hd⟩
          · rw [hd]
            exact explained_finish (.quiet _ (by simp [decodeResult]) (by simp [decodeResult]) (by simp [decodeResult])
              (by simp) (by simp) (by simp))
          · rw [hd]; exact explained_finish (.delivering bytes p _ _ rfl (by omega) hp hd)
          · rw [hd]; exact explained_finish (.delivering bytes p _ _ rfl (by omega) hp hd)

theorem execRegRegister_explained (id sel name : Nat) (s : State) :
    Explained (.regRegister id sel name) s (execRegRegister id sel name s) := by
  unfold execRegRegister
  split
  · exact explained_finish (.quiet _ (by simp) (by simp) (by simp) (by simp) (by simp)
      (by rintro _ _ _ ⟨⟩; simp; omega))
  · split
    · exact explained_finish (.quiet _ (by simp) (by simp) (by simp) (by simp) (by simp)
        (by rintro _ _ _ ⟨⟩; simp; omega))
    · split
      · exact explained_finish (.quiet _ (by simp) (by simp) (by simp) (by simp) (by simp)
          (by rintro _ _ _ ⟨⟩; simp; omega))
      · rename_i h1 h2 h3
        unfold registerEntry
        split
        · rename_i hst
          exact explained_finish (.quiet _ (by simp) (by simp) (by simp) (by simp) (by simp)
            (by rintro _ _ _ ⟨⟩; simp [hst]))
        · rename_i hst
          exact explained_finish (.quiet _ (by simp) (by simp) (by simp) (by simp) (by simp)
            (by rintro _ _ _ ⟨⟩; simp [hst]))
        · rename_i hst
          split
          · rename_i hreg
            rw [find_isSome_iff] at hreg
            exact explained_finish (.aborting id sel name rfl hst (by omega) (by omega) (by omega) hreg)
          · rename_i hreg
            rw [find_isSome_iff] at hreg
            split
            · exact explained_finish (.quiet _ (by simp) (by simp) (by simp) (by simp) (by simp)
                (by rintro _ _ _ ⟨⟩; exact ⟨by simp, fun h => hreg h.2.2.2.2⟩))
            · rename_i hfull
              exact explained_finish (.inserting id sel name rfl hst (by omega) (by omega) (by omega) hreg hfull)

theorem execRegLookup_explained (id : Nat) (s : State) : Explained (.regLookup id) s (execRegLookup id s) := by
  unfold execRegLookup
  repeat' split
  all_goals exact explained_finish (.quiet _ (by simp) (by simp) (by simp) (by simp) (by simp) (by simp))

theorem execRegSeal_explained (s : State) : Explained .regSeal s (execRegSeal s) := by
  unfold execRegSeal
  split
  · exact explained_finish (.quiet _ (by simp) (by simp) (by simp) (fun _ => ‹_›) (by simp) (by simp))
  · exact explained_finish (.sealing rfl (by assumption))

theorem execRegClear_explained (s : State) : Explained .regClear s (execRegClear s) := explained_finish (.clearing rfl)

/-- The one inversion lemma of `exec`. -/
theorem exec_explained (i : Instr) (s : State) : Explained i s (exec i s) := by
  cases i with
  | cfgWrite reg value => exact execCfgWrite_explained reg value s
  | cfgRead reg => exact execCfgRead_explained reg s
  | bfPack dset values => exact execBfPack_explained dset values s
  | bfUnpack dset c => exact execBfUnpack_explained dset c s
  | fcEncCmd ni ct cp sm => exact execFcEncCmd_explained ni ct cp sm s
  | fcEncRsp ni ct cp tr ov => exact execFcEncRsp_explained ni ct cp tr ov s
  | fcDec b => exact execFcDec_explained b s
  | fcEncExt se pe rs ver => exact execFcEncExt_explained se pe rs ver s
  | fcDecExt x => exact execFcDecExt_explained x s
  | envEncode o payload => exact execEnvEncode_explained o payload s
  | envDecode len frame => exact execEnvDecode_explained len frame s
  | regRegister id sel name => exact execRegRegister_explained id sel name s
  | regLookup id => exact execRegLookup_explained id s
  | regSeal => exact execRegSeal_explained s
  | regClear => exact execRegClear_explained s
  | illegal op => exact explained_plain (by simp) rfl (by simp) (by simp) (by simp) (by simp)
  | wLcmd ni ct cp sm => exact explained_plain (by simp) rfl (by simp) (by simp) (by simp) (by simp)
  | wLrsp ni ct cp tr ov => exact explained_plain (by simp) rfl (by simp) (by simp) (by simp) (by simp)
  | wExt se pe rs ver => exact explained_plain (by simp) rfl (by simp) (by simp) (by simp) (by simp)

/-- A next state is the completion of an effect. -/
theorem exec_effect {i : Instr} {s t : State} (h : exec i s = .next t) :
    ∃ r s', Effect i s r s' ∧ t = complete r s' := by
  have := exec_explained i s
  rwa [h] at this

/-- A next state's result, when it is named, is the effect's. -/
theorem exec_effect_of_results {i : Instr} {s t : State} {r : Result} (h : exec i s = .next t)
    (hr : t.results = s.results ++ [r]) : ∃ s', Effect i s r s' ∧ t = complete r s' := by
  obtain ⟨r', s', he, rfl⟩ := exec_effect h
  obtain rfl : r' = r := by
    have : s'.results = s.results := by cases he <;> rfl
    simpa [this] using hr
  exact ⟨s', he, rfl⟩

/-- What no effect touches. -/
theorem Effect.frame {i : Instr} {s s' : State} {r : Result} (h : Effect i s r s') :
    s'.q = s.q ∧ s'.results = s.results ∧ s'.cfg = s.cfg ∧ s'.port = s.port := by
  cases h <;> exact ⟨rfl, rfl, rfl, rfl⟩

/-- The three ways a step answers a next state. -/
theorem step_cases {s t : State} (h : step s = .next t) :
    (s.port = [] ∧ t = s) ∨
    (∃ rest, s.port = .reset :: rest ∧ t = takeReset { s with port := rest }) ∨
    (∃ w rest i, s.port = .present w :: rest ∧ decode w = .ok i ∧ exec i { s with port := rest } = .next t) := by
  unfold step at h
  split at h
  · rename_i hp; cases h; exact .inl ⟨hp, rfl⟩
  · rename_i rest hp; cases h; exact .inr (.inl ⟨rest, hp, rfl⟩)
  · rename_i w rest hp
    split at h
    · cases h
    · rename_i i hi; exact .inr (.inr ⟨w, rest, i, hp, hi, h⟩)

/-! ### Requests one after another -/

@[simp] theorem execAll_nil (s : State) : execAll [] s = .next s := rfl

theorem execAll_cons_of_next {i : Instr} {s t : State} (h : exec i s = .next t) (is : List Instr) :
    execAll (i :: is) s = execAll is t := by rw [execAll, h]

theorem execAll_cons_of_refused {i : Instr} {s : State} {why : Refusal} (h : exec i s = .refused why)
    (is : List Instr) : execAll (i :: is) s = .refused why := by rw [execAll, h]

end Sys2Proof.Machine
end

