-- ==== Sys2Proof/Tests/Slice0.lean ====
section
/-! SUPPORT. The model's own tests: the well-formedness smoke test, words written out from the spec's
encodings, one step per theorem on the vectors of spec/95_test_vectors.md (named in each docstring), and
for every obligation with hypotheses a concrete case that meets them. -/

namespace Sys2Proof.Tests

open Sys2Proof Sys2Proof.Machine

/-! ### Small states and what a test looks at -/

/-- A block with the parameters of 95_test_vectors.md and the given registry. -/
def blockWith (ext : Bool) (st : RegState) (es : List Entry) : State :=
  { State.reset with
    extEn := ext, regState := st, regCount := es.length, entries := es ++ List.replicate (2 - es.length) {} }

/-- `{1, 0x0005, 1, 0x11}`. -/
def entry5 : Entry := { valid := true, id := 0x0005, sel := 1, name := 0x11 }

/-- `{1, 0x0000, 0, 0x01}`. -/
def entry0 : Entry := { valid := true, id := 0x0000, sel := 0, name := 0x01 }

/-- The registry of the V-ENV rows. -/
def sealedBlock (ext : Bool) : State := blockWith ext .sealed [entry5, entry0]

/-- After RG16. -/
def openBlock : State := blockWith false .building [entry5]

/-- After RG4: full and still open. -/
def fullBlock : State := blockWith false .building [entry5, entry0]

/-- After RG18. -/
def abortedBlock : State := blockWith false .aborted [entry5, entry0]

/-- The result of one step. -/
def resultOf (a : Answer) : Option Result :=
  match a with
  | .next t => t.results.getLast?
  | .fault _ => none
  | .refused _ => none

/-- The state a step leaves, the old one where it leaves none. -/
def stateOf (a : Answer) (s : State) : State :=
  match a with
  | .next t => t
  | .fault _ => s
  | .refused _ => s

/-- Why a step is refused. -/
def refusalOf (a : Answer) : Option Refusal :=
  match a with
  | .next _ => none
  | .fault _ => none
  | .refused r => some r

/-! ### Well-formedness: each check refuses an ill-formed term -/

theorem test_wf_lanes_refuse :
    [Instr.cfgWrite (2 ^ 32) 0, .cfgWrite 0 (2 ^ 32), .cfgRead (2 ^ 32), .bfPack (2 ^ 32) [], .bfPack 0 [0, 2 ^ 32],
      .bfUnpack (2 ^ 32) 0, .bfUnpack 0 (2 ^ 32), .fcDec (2 ^ 32), .fcDecExt (2 ^ 32), .envDecode (2 ^ 32) none,
      .regRegister (2 ^ 32) 0 0, .regRegister 0 (2 ^ 32) 0, .regRegister 0 0 (2 ^ 32), .regLookup (2 ^ 32)].all
      (fun i => !i.wf) = true := by decide

theorem test_wf_header_lanes_refuse :
    [Instr.fcEncCmd (2 ^ 32) 0 0 0, .fcEncCmd 0 (2 ^ 32) 0 0, .fcEncCmd 0 0 (2 ^ 32) 0, .fcEncCmd 0 0 0 (2 ^ 32),
      .fcEncRsp (2 ^ 32) 0 0 0 0, .fcEncRsp 0 (2 ^ 32) 0 0 0, .fcEncRsp 0 0 (2 ^ 32) 0 0, .fcEncRsp 0 0 0 (2 ^ 32) 0,
      .fcEncRsp 0 0 0 0 (2 ^ 32), .fcEncExt (2 ^ 32) 0 0 0, .fcEncExt 0 (2 ^ 32) 0 0, .fcEncExt 0 0 (2 ^ 32) 0,
      .fcEncExt 0 0 0 (2 ^ 32)].all (fun i => !i.wf) = true := by decide

theorem test_wf_envelope_lanes_refuse :
    [{ seq := 2 ^ 32 }, { kind := 2 ^ 32 }, { networkIndex := 2 ^ 32 }, { callbackType := 2 ^ 32 },
      { callbackPending := 2 ^ 32 }, { sleepMode := 2 ^ 32 }, { truncated := 2 ^ 32 }, { overflow := 2 ^ 32 },
      { securityEnabled := 2 ^ 32 }, { paddingEnabled := 2 ^ 32 }, { reserved := 2 ^ 32 },
      { frameFormatVersion := 2 ^ 32 }, { id := 2 ^ 32 }].all
      (fun o : EnvelopeOperands => !(Instr.envEncode o none).wf) = true := by decide

/-- A buffer and a value list of 2 ^ 32 elements or more have no count. -/
theorem test_wf_counts_refuse (bs : List Byte) (values : List Nat) (hb : 2 ^ 32 ≤ bs.length) (hv : 2 ^ 32 ≤ values.length) :
    (Instr.envDecode 0 (some bs)).wf = false ∧ (Instr.envEncode {} (some bs)).wf = false ∧
    (Instr.bfPack 0 values).wf = false := by
  refine ⟨?_, ?_, ?_⟩
  · simp only [Instr.wf, bufferFits, decide_eq_false (Nat.not_lt.2 hb), Bool.and_false]
  · simp only [Instr.wf, bufferFits, decide_eq_false (Nat.not_lt.2 hb), Bool.and_false]
  · simp only [Instr.wf, valuesFit, decide_eq_false (Nat.not_lt.2 hv), Bool.false_and, Bool.and_false]

/-- 30_encoding.md R61: 0x01 and 0x0F are defined op codes, 0x00, 0x10 and 0xFF are not. -/
theorem test_wf_op_refuses :
    (Instr.illegal 0x01).wf = false ∧ (Instr.illegal 0x0F).wf = false ∧ (Instr.illegal 0x00).wf = true ∧
    (Instr.illegal 0x10).wf = true ∧ (Instr.illegal 0xFF).wf = true := by decide

/-- I4: the set `Y` of 95_test_vectors.md (one UInt 7 field in 8 bits) is refused, the set `X` is not. -/
theorem test_descriptor_sets :
    descSetWellFormed { name := "Y", bits := 8, fields := [{ name := "a", width := 7, enc := .uint }] } = false ∧
    descSetWellFormed { name := "X", bits := 8, fields := [{ name := "a", width := 3, enc := .uint },
      { name := "b", width := 1, enc := .bool }, { name := "c", width := 4, enc := .uint }] } = true := by decide

/-- 40_bitfield.md R68, one set that breaks each of (a), (c), (d), (e) and (f). -/
theorem test_descriptor_sets_each_condition :
    [{ name := "a0", bits := 0, fields := [] },
      { name := "a1", bits := 1, fields := [{ name := "a", width := 0, enc := .uint }, { name := "b", width := 1, enc := .bool }] },
      { name := "c", bits := 2, fields := [{ name := "a", width := 2, enc := .bool }] },
      { name := "d", bits := 1, fields := [{ name := "a", width := 1, enc := .enum [("x", 0), ("y", 0)] }] },
      { name := "e1", bits := 2, fields := [{ name := "a", width := 1, enc := .uint }, { name := "a", width := 1, enc := .uint }] },
      { name := "e2", bits := 1, fields := [{ name := "a", width := 1, enc := .enum [("x", 0), ("x", 1)] }] },
      { name := "f", bits := 17, fields := [{ name := "a", width := 17, enc := .uint }] }].all
      (fun d => !descSetWellFormed d) = true := by decide

/-! ### Decoding: a word written out for every constructor -/

/-- 30_encoding.md R60's op codes; the operands' places are log entry 3's, each operand a value of its own. -/
theorem test_decode_configuration_and_codec :
    decode (.request [0x01, 1, 0, 0, 0, 2, 0, 0, 0]) = .ok (.cfgWrite 1 2) ∧
    decode (.request [0x02, 0, 1, 0, 0]) = .ok (.cfgRead 0x100) ∧
    decode (.request [0x03, 2, 0, 0, 0, 3, 0, 0, 0, 7, 0, 0, 0, 8, 0, 0, 0, 9, 0, 1, 0]) = .ok (.bfPack 2 [7, 8, 0x10009]) ∧
    decode (.request [0x04, 1, 0, 0, 0, 0xB3, 0, 0, 0]) = .ok (.bfUnpack 1 0xB3) := by decide

theorem test_decode_frame_control :
    decode (.request [0x05, 1, 0, 0, 0, 2, 0, 0, 0, 3, 0, 0, 0, 4, 0, 0, 0]) = .ok (.fcEncCmd 1 2 3 4) ∧
    decode (.request [0x06, 1, 0, 0, 0, 2, 0, 0, 0, 3, 0, 0, 0, 4, 0, 0, 0, 5, 0, 0, 0]) = .ok (.fcEncRsp 1 2 3 4 5) ∧
    decode (.request [0x07, 0xFF, 0, 0, 0]) = .ok (.fcDec 0xFF) ∧
    decode (.request [0x08, 1, 0, 0, 0, 2, 0, 0, 0, 3, 0, 0, 0, 4, 0, 0, 0]) = .ok (.fcEncExt 1 2 3 4) ∧
    decode (.request [0x09, 0x41, 0, 0, 0]) = .ok (.fcDecExt 0x41) := by decide

theorem test_decode_envelope :
    decode (.request [0x0A, 1, 0, 0, 0, 2, 0, 0, 0, 3, 0, 0, 0, 4, 0, 0, 0, 5, 0, 0, 0, 6, 0, 0, 0, 7, 0, 0, 0,
      8, 0, 0, 0, 9, 0, 0, 0, 10, 0, 0, 0, 11, 0, 0, 0, 12, 0, 0, 0, 13, 0, 0, 0, 0, 1, 0, 0, 0, 0x55]) =
      .ok (.envEncode { seq := 1, kind := 2, networkIndex := 3, callbackType := 4, callbackPending := 5,
                        sleepMode := 6, truncated := 7, overflow := 8, securityEnabled := 9, paddingEnabled := 10,
                        reserved := 11, frameFormatVersion := 12, id := 13 } (some [0x55])) ∧
    decode (.request [0x0B, 2, 0, 0, 0, 0, 2, 0, 0, 0, 0x2A, 0x01]) = .ok (.envDecode 2 (some [0x2A, 0x01])) ∧
    decode (.request [0x0B, 2, 0, 0, 0, 1]) = .ok (.envDecode 2 none) := by decide

theorem test_decode_registry_and_illegal :
    decode (.request [0x0C, 5, 0, 0, 0, 1, 0, 0, 0, 0x11, 0, 0, 0]) = .ok (.regRegister 5 1 0x11) ∧
    decode (.request [0x0D, 0xFF, 0xFF, 0, 0]) = .ok (.regLookup 0xFFFF) ∧
    decode (.request [0x0E]) = .ok .regSeal ∧
    decode (.request [0x0F]) = .ok .regClear ∧
    decode (.request [0x00]) = .ok (.illegal 0x00) ∧
    decode (.request [0x10]) = .ok (.illegal 0x10) ∧
    decode (.request [0xFF]) = .ok (.illegal 0xFF) := by decide

/-- R49 to R51, bit 7 first: `SSPCCNN0`, `OTPCCNN1`, `VVRRRRPS`. -/
theorem test_decode_control_bytes :
    decode (.legacyByte 0b10101110#8) = .ok (.wLcmd 3 .synchronous true .powerDown) ∧
    decode (.legacyByte 0b01000000#8) = .ok (.wLcmd 0 .none false .deepSleep) ∧
    decode (.legacyByte 0b01010101#8) = .ok (.wLrsp 2 .asynchronous false true false) ∧
    decode (.legacyByte 0b10100011#8) = .ok (.wLrsp 1 .none true false true) ∧
    decode (.extByte 0b10010110#8) = .ok (.wExt false true 5 .reserved2) ∧
    decode (.extByte 0b01000001#8) = .ok (.wExt true false 0 .version1) := by decide

theorem test_decode_refuses_by_name :
    decode (.request []) = .error .noOpCode ∧
    decode (.request [0x07, 0xFF, 0, 0]) = .error .missingOperand ∧
    decode (.request [0x0B, 0, 0, 0, 0, 2]) = .error .badBufferTag := by decide

/-- What the host asks of the decoder: rows of the table by their own numbering (log entry 11). -/
theorem test_decode_table_words :
    decodeTableWord 8 0x05 = some (.fcEncCmd 0 0 0 0) ∧
    decodeTableWord 8 0x0E = some .regSeal ∧
    decodeTableWord 8 0x00 = some (.illegal 0x00) ∧
    decodeTableWord 8 0x01 = some (.wLrsp 0 .none false false false) ∧
    decodeTableWord 16 0xFF07 = some (.fcDec 0xFF) ∧
    decodeTableWord 16 0x0302 = some (.cfgRead 3) := by decide

/-- The word on the port is run as the first instruction after reset. -/
theorem test_with_fetch_word_runs :
    resultOf (step (State.reset.withFetchWord 8 0x0A)) = some { len := 4, frame := [0, 0, 0, 0] } ∧
    resultOf (step (State.reset.withFetchWord 16 0xFF07)) = resultOf (exec (.fcDec 0xFF) State.reset) := by decide

/-- 30_encoding.md R65. -/
theorem test_pseudo_instructions :
    Pseudo.expand .setFormatExtended = .cfgWrite 0 1 ∧ Pseudo.expand .setFormatLegacy = .cfgWrite 0 0 ∧
    Pseudo.expand .getCtrl = .cfgRead 0 ∧ Pseudo.expand .getStatus = .cfgRead 1 ∧
    Pseudo.expand (.envDecodeBytes [1, 2, 3]) = .envDecode 3 (some [1, 2, 3]) := by decide

/-! ### One step: spec/95_test_vectors.md -/

/-- CF3. -/
theorem test_cfg_write_ctrl : (stateOf (exec (.cfgWrite 0 1) State.reset) State.reset).extEn = true := by decide

/-- CF5. -/
theorem test_cfg_write_status : resultOf (exec (.cfgWrite 1 0) State.reset) =
    some { status := .illegalOperation, info := .operand .reg } := by decide

/-- RG14. -/
theorem test_cfg_read_status : resultOf (exec (.cfgRead 1) (sealedBlock false)) = some { value := 0x0009 } := by decide

/-- CF8. -/
theorem test_cfg_read_overflow : resultOf (exec (.cfgRead 0x100) State.reset) =
    some { status := .fieldOverflow, info := .operand .reg } := by decide

/-- BF9. -/
theorem test_bf_pack_lowest_failing_field : resultOf (exec (.bfPack 0 [0, 4, 0, 0, 4]) State.reset) =
    some { status := .fieldOverflow, info := .field 1 } := by decide

/-- BF20, with the set `X`. -/
theorem test_bf_pack_extra_set :
    resultOf (exec (.bfPack 3 [5, 1, 9]) { State.reset with
      cfg := { Config.testVectors with
        extraDsets := [{ name := "X", bits := 8, fields := [{ name := "a", width := 3, enc := .uint },
          { name := "b", width := 1, enc := .bool }, { name := "c", width := 4, enc := .uint }] }] } }) =
    some { c := 0x9D } := by decide

/-- BF15. -/
theorem test_bf_unpack_response : resultOf (exec (.bfUnpack 1 0xB3) State.reset) =
    some { values := [1, 1, 2, 1, 0, 1] } := by decide

/-- BF18. -/
theorem test_bf_unpack_overflow : resultOf (exec (.bfUnpack 0 0x100) State.reset) =
    some { status := .fieldOverflow, info := .operand .c } := by decide

/-- FC2. -/
theorem test_fc_enc_cmd : resultOf (exec (.fcEncCmd 3 0 1 2) State.reset) = some { b := 0xA6 } := by decide

/-- FC11. -/
theorem test_fc_enc_cmd_first_error : resultOf (exec (.fcEncCmd 4 0 0 4) State.reset) =
    some { status := .fieldOverflow, info := .operand .networkIndex } := by decide

/-- FC14. -/
theorem test_fc_enc_rsp : resultOf (exec (.fcEncRsp 2 1 0 1 0) State.reset) = some { b := 0x4D } := by decide

/-- FC17. -/
theorem test_fc_enc_rsp_overflow : resultOf (exec (.fcEncRsp 0 0 0 0 2) State.reset) =
    some { status := .fieldOverflow, info := .operand .overflow } := by decide

/-- FC24. -/
theorem test_fc_dec_command : resultOf (exec (.fcDec 0xFE) State.reset) =
    some { legacy := { kind := .command, networkIndex := 3, callbackType := .reserved, callbackPending := true,
                       sleepMode := .reserved }
           rsv := 0b00111#5 } := by decide

/-- FC23. -/
theorem test_fc_dec_response : resultOf (exec (.fcDec 0x81) State.reset) =
    some { legacy := { kind := .response, overflow := true } } := by decide

/-- EX4. -/
theorem test_fc_enc_ext_reserved_verbatim : resultOf (exec (.fcEncExt 0 0 5 0) State.reset) =
    some { x := 0x14, rsv := 0b01000#5 } := by decide

/-- EX7. -/
theorem test_fc_enc_ext_first_error : resultOf (exec (.fcEncExt 2 0 16 4) State.reset) =
    some { status := .fieldOverflow, info := .operand .securityEnabled } := by decide

/-- W8. -/
theorem test_fc_dec_ext_reserved : resultOf (exec (.fcDecExt 0x3C) State.reset) =
    some { ext := { reserved := 15 }, rsv := 0b01000#5 } := by decide

/-- EX9. -/
theorem test_fc_dec_ext_version : resultOf (exec (.fcDecExt 0x80) State.reset) =
    some { ext := { frameFormatVersion := .reserved2 }, rsv := 0b10000#5 } := by decide

/-- EN11. -/
theorem test_env_encode_extended :
    resultOf (exec (.envEncode { seq := 0x10, kind := 0, securityEnabled := 1, frameFormatVersion := 1, id := 0x1234 }
      (some [0x55])) (sealedBlock true)) =
    some { len := 6, frame := [0x10, 0x00, 0x41, 0x34, 0x12, 0x55] } := by decide

/-- EN18. -/
theorem test_env_encode_first_error :
    resultOf (exec (.envEncode { networkIndex := 4, id := 0x10000 } (some [])) (sealedBlock false)) =
    some { status := .fieldOverflow, info := .operand .networkIndex } := by decide

/-- EN9: a flagged frame is still dispatched. -/
theorem test_env_decode_extended :
    resultOf (exec (.envDecode 5 (some [0x10, 0x01, 0xFF, 0x05, 0x00])) (sealedBlock true)) =
    some { seq := 0x10, legacy := { kind := .response }, extPresent := true
           ext := { securityEnabled := true, paddingEnabled := true, reserved := 15, frameFormatVersion := .reserved3 }
           id := 0x0005, rsv := 0b11000#5, route := some (.codec 1) } := by decide

/-- HZ1a: the extended byte read as the low id byte, and the delivery to UNKNOWN. -/
theorem test_env_decode_other_format :
    (stateOf (exec (.envDecode 5 (some [0x10, 0x01, 0x41, 0x05, 0x00])) openBlock) openBlock).dlog =
    [{ port := .unknown
       record := { seq := 0x10, legacy := { kind := .response }, extPresent := false, ext := {}, id := 0x0541, plen := 1
                   payload := [0x00], rsv := 0 } }] := by decide

/-- RG18: a duplicate beats a full table, and aborts it. -/
theorem test_reg_register_duplicate :
    resultOf (exec (.regRegister 0x0005 3 0) fullBlock) = some { status := .duplicateFrameId, info := .operand .id } ∧
    (stateOf (exec (.regRegister 0x0005 3 0) fullBlock) fullBlock).block = { fullBlock.block with regState := .aborted } := by
  decide

/-- RG17, RG24. -/
theorem test_reg_register_insert_and_first_error :
    (stateOf (exec (.regRegister 0x0006 1 0x11) openBlock) openBlock).entries =
      [entry5, { valid := true, id := 0x0006, sel := 1, name := 0x11 }] ∧
    resultOf (exec (.regRegister 0x10000 4 0) State.reset) = some { status := .fieldOverflow, info := .operand .id } := by
  decide

/-- RG13. -/
theorem test_reg_lookup : resultOf (exec (.regLookup 0) (sealedBlock false)) =
    some { sel := 0, name := 0x01, index := 1 } := by decide

/-- RG20. -/
theorem test_reg_lookup_aborted : resultOf (exec (.regLookup 5) abortedBlock) =
    some { status := .registryAborted } := by decide

/-- RG11. -/
theorem test_reg_seal_idempotent :
    (stateOf (exec .regSeal (sealedBlock false)) State.reset).block = (sealedBlock false).block := by decide

/-- RG21. -/
theorem test_reg_seal_aborted : resultOf (exec .regSeal abortedBlock) = some { status := .registryAborted } := by decide

/-- RG23. -/
theorem test_reg_clear : (stateOf (exec .regClear abortedBlock) abortedBlock).block = State.reset.block := by decide

/-- CF11. -/
theorem test_illegal : resultOf (exec (.illegal 0xFF) State.reset) =
    some { status := .illegalOperation, info := .operand .op } := by decide

/-- The bytes of FC22, FC21 and EX8, presented as they stand in an envelope (log entry 10). -/
theorem test_wire_lcmd : resultOf (step { State.reset with port := [.present (.legacyByte 0x80)] }) =
    some { legacy := { sleepMode := .powerDown } } := by decide

theorem test_wire_lrsp : resultOf (step { State.reset with port := [.present (.legacyByte 0x4D)] }) =
    some { legacy := { kind := .response, networkIndex := 2, callbackType := .synchronous, truncated := true } } := by
  decide

theorem test_wire_ext : resultOf (step { State.reset with port := [.present (.extByte 0x41)] }) =
    some { ext := { securityEnabled := true, frameFormatVersion := .version1 } } := by decide

/-! ### Witnesses: for each obligation with hypotheses, cases that meet them -/

theorem reset_inv : State.reset.Inv := by constructor <;> first | decide | exact fun _ h => absurd h List.not_mem_nil

theorem open_inv : openBlock.Inv := by constructor <;> first | decide | exact fun _ h => absurd h List.not_mem_nil

theorem full_inv : fullBlock.Inv := by constructor <;> first | decide | exact fun _ h => absurd h List.not_mem_nil

theorem sealed_inv (ext : Bool) : (sealedBlock ext).Inv := by cases ext <;> constructor <;> first | decide | exact fun _ h => absurd h List.not_mem_nil

theorem aborted_inv : abortedBlock.Inv := by constructor <;> first | decide | exact fun _ h => absurd h List.not_mem_nil

/-- The largest lanes, and the ends of the undefined op codes. -/
theorem witness_DecodeOfEncodeIsTheInstruction :
    [Instr.cfgWrite (2 ^ 32 - 1) 0, .cfgRead 0xFF, .bfPack 2 [1, 1, 15, 3], .bfUnpack 1 0xFF, .fcEncCmd 3 3 1 3,
      .fcEncRsp 3 3 1 1 1, .fcDec 0xFF, .fcEncExt 1 1 15 3, .fcDecExt 0xFF, .envEncode { id := 0xFFFF } (some [0x55]),
      .envEncode {} none, .envDecode 4 (some [0, 0, 0, 0]), .regRegister 0xFFFF 3 0xFF, .regLookup 0xFFFF, .regSeal,
      .regClear, .illegal 0x00, .illegal 0x10, .illegal 0xFF, .wLcmd 3 .reserved true .reserved,
      .wLrsp 3 .reserved true true true, .wExt true true 15 .reserved3].all
      (fun i => i.wf && (decode (encode i) == .ok i)) = true := by decide

/-- The lowest and the highest defined op codes and the undefined ones beside them. -/
theorem witness_OperationCodes :
    decode (.request [0x00]) = .ok (.illegal 0x00) ∧
    decode (.request [0x01, 0, 0, 0, 0, 1, 0, 0, 0]) = .ok (.cfgWrite 0 1) ∧
    decode (.request [0x0F]) = .ok .regClear ∧ decode (.request [0x10]) = .ok (.illegal 0x10) := by decide

/-- Reads and writes at an even and an odd offset, inside a buffer and at its end, and a frame of each
format (the bytes of EN1 and EN7). -/
theorem witness_BufferAccessesAreByteGranular :
    (2 + 2 ≤ [0x2A, 0x01, 0x05, (0x00 : Byte)].length ∧ memRead [0x2A, 0x01, 0x34, 0x12] 2 2 = 0x1234) ∧
    (3 + 2 ≤ [0x10, 0x01, 0x41, 0x05, (0x00 : Byte)].length ∧ memRead [0x10, 0x01, 0x41, 0x34, 0x12] 3 2 = 0x1234) ∧
    memWrite [0xAA, 0xBB, 0xCC] 1 1 0x1FF = [0xAA, 0xFF, 0xCC] ∧
    memWrite [0xAA, 0xBB, 0xCC] 3 2 0x1234 = [0xAA, 0xBB, 0xCC, 0x34, 0x12] ∧
    (parseEnvelope [0x2A, 0x01, 0x05, 0x00, 0xAA, 0xBB] 6 false).map (·.id) = some 0x0005 ∧
    (parseEnvelope [0x10, 0x01, 0x41, 0x05, 0x00] 5 true).map (·.id) = some 0x0005 := by decide

theorem witness_EveryControlByteIsTheWordOfItsReading : (0xFE#8).toNat % 2 = 0 ∧ (0xFF#8).toNat % 2 = 1 := by decide

theorem witness_StepRunsTheDecodedInstruction :
    ({ State.reset with port := [.present (.request [0x0E])] } : State).port = .present (.request [0x0E]) :: [] ∧
    decode (.request [0x0E]) = .ok .regSeal := by decide

theorem witness_StepWithoutARequest :
    State.reset.port = [] ∧
    ({ State.reset with port := [.present (.request [])] } : State).port = .present (.request []) :: [] ∧
    decode (.request []) = .error .noOpCode := by decide

theorem witness_ResetIsAStepOfItsOwn :
    ({ sealedBlock true with port := [.reset, .present (.request [0x0F])], q := 7 } : State).port =
      .reset :: [.present (.request [0x0F])] := by decide

theorem witness_StateJustAfterPowerOn : 0xFFFF < 2 ^ 16 ∧
    CompletesWith (.regLookup 0xFFFF) (State.powerOn Config.testVectors)
      { status := .unknownFrameId, info := .operand .id } := ⟨by decide, rfl⟩

theorem witness_EveryRequestReturnsOneResult :
    ∃ t, exec (.fcDec 256) openBlock = .next t ∧ t.q = openBlock.q + 1 := ⟨_, rfl, rfl⟩

/-- MAX_FRAME is 64: 65 bytes are refused, 64 are not (EN20). -/
theorem witness_OnlyLongFramesAreRefused :
    refusalOf (exec (.envDecode 65 none) State.reset) = some .frameTooLong ∧
    refusalOf (exec (.envDecode 64 none) State.reset) = none ∧
    refusalOf (exec (.envEncode {} (some (List.replicate 61 0))) State.reset) = some .encodedFrameTooLong ∧
    refusalOf (exec (.envEncode {} (some (List.replicate 60 0))) State.reset) = none := by decide

theorem witness_EveryStepKeepsTheInvariant :
    openBlock.Inv ∧ ∃ t, exec (.regRegister 6 3 0xFF) openBlock = .next t ∧
      step { openBlock with port := [.present (.request [0x0C, 6, 0, 0, 0, 3, 0, 0, 0, 0xFF, 0, 0, 0])] } = .next t ∧
      t.regCount = 2 := ⟨open_inv, _, rfl, rfl, rfl⟩

theorem witness_PowerOnMeetsTheInvariant :
    configWellFormed { nReg := 16383, wSel := 16, wName := 16, maxFrame := 5, extraDsets := [] } = true ∧
    configWellFormed { nReg := 1, wSel := 0, wName := 0, maxFrame := 5, extraDsets := [] } = true ∧
    configWellFormed { nReg := 16384, wSel := 0, wName := 0, maxFrame := 5, extraDsets := [] } = false ∧
    configWellFormed { nReg := 0, wSel := 0, wName := 0, maxFrame := 5, extraDsets := [] } = false ∧
    configWellFormed { nReg := 1, wSel := 17, wName := 0, maxFrame := 5, extraDsets := [] } = false ∧
    configWellFormed { nReg := 1, wSel := 0, wName := 17, maxFrame := 5, extraDsets := [] } = false ∧
    configWellFormed { nReg := 1, wSel := 0, wName := 0, maxFrame := 4, extraDsets := [] } = false := by decide

theorem open_registered : openBlock.Registered 5 := ⟨0, by decide⟩

theorem open_not_registered : ¬ openBlock.Registered 6 := find_eq_none_iff.1 (by decide)

theorem full_not_registered : ¬ fullBlock.Registered 6 := find_eq_none_iff.1 (by decide)

/-- One case per clause: a duplicate, another registration, a seal in ABORTED and outside it, a clear, and
an instruction of none of these kinds. -/
theorem witness_RegStateTransitions :
    (openBlock.regState = .building ∧ 5 < 2 ^ 16 ∧ 3 < 2 ^ openBlock.cfg.wSel ∧ 0xFF < 2 ^ openBlock.cfg.wName ∧
      openBlock.Registered (BitVec.ofNat 16 5) ∧ ∃ t, exec (.regRegister 5 3 0xFF) openBlock = .next t) ∧
    (¬ openBlock.Registered (BitVec.ofNat 16 6) ∧ ∃ t, exec (.regRegister 6 0 0) openBlock = .next t) ∧
    (∃ t, exec .regSeal abortedBlock = .next t ∧ abortedBlock.regState = .aborted) ∧
    (∃ t, exec .regSeal openBlock = .next t ∧ openBlock.regState ≠ .aborted) ∧
    (∃ t, exec .regClear abortedBlock = .next t) ∧ (∃ t, exec (.regLookup 5) openBlock = .next t) :=
  ⟨⟨rfl, by decide, by decide, by decide, open_registered, _, rfl⟩, ⟨open_not_registered, _, rfl⟩, ⟨_, rfl, rfl⟩,
    ⟨_, rfl, by decide⟩, ⟨_, rfl⟩, ⟨_, rfl⟩⟩

theorem witness_OnlyCfgWriteChangesTheFormat :
    ∃ t, exec (.cfgWrite 0 1) openBlock = .next t ∧ t.extEn ≠ openBlock.extEn := ⟨_, rfl, by decide⟩

theorem witness_ReadersWriteNoState :
    (∃ t, exec (.fcDec 0) openBlock = .next t ∧ t.dlog = openBlock.dlog) ∧
    (∃ t, exec (.envDecode 4 (some [0, 1, 5, 0])) openBlock = .next t ∧ t.dlog ≠ openBlock.dlog) :=
  ⟨⟨_, rfl, rfl⟩, _, rfl, by decide⟩

/-- An error that writes nothing, the duplicate, and the frame to UNKNOWN. -/
theorem witness_ErrorsWriteNoBlockState :
    (∃ t r, exec (.fcDec 256) openBlock = .next t ∧ t.results = openBlock.results ++ [r] ∧ r.status = .fieldOverflow) ∧
    (∃ t r, exec (.regRegister 5 0 0) openBlock = .next t ∧ t.results = openBlock.results ++ [r] ∧
      r.status = .duplicateFrameId) ∧
    (∃ t r, exec (.regLookup 6) openBlock = .next t ∧ t.results = openBlock.results ++ [r] ∧
      r.status = .unknownFrameId) ∧
    (∃ t r, exec (.envDecode 4 (some [0, 1, 6, 0])) openBlock = .next t ∧ t.results = openBlock.results ++ [r] ∧
      r.status = .unknownFrameId) :=
  ⟨⟨_, _, rfl, rfl, rfl⟩, ⟨_, _, rfl, rfl, rfl⟩, ⟨_, _, rfl, rfl, rfl⟩, ⟨_, _, rfl, rfl, rfl⟩⟩

theorem witness_DeliveryLogIsAppendOnly :
    ∃ t d, exec (.envDecode 4 (some [0, 1, 6, 0])) openBlock = .next t ∧ t.dlog = openBlock.dlog ++ [d] :=
  ⟨_, _, rfl, rfl⟩

/-- A step that keeps entry 0, a reset and a REG_CLEAR. -/
theorem witness_ValidEntriesStayUntilCleared :
    openBlock.Inv ∧ 0 < openBlock.regCount ∧
    (∃ t, step { openBlock with port := [.present (.request [0x0E])] } = .next t ∧ entryAt 0 t = entry5) ∧
    (∃ t, step { openBlock with port := [.reset] } = .next t ∧ entryAt 0 t = {}) ∧
    (∃ t, step { openBlock with port := [.present (.request [0x0F])] } = .next t ∧ entryAt 0 t = {}) :=
  ⟨open_inv, by decide, ⟨_, rfl, rfl⟩, ⟨_, rfl, rfl⟩, ⟨_, rfl, rfl⟩⟩

theorem witness_HistoryIsNoInput :
    openBlock.block = ({ openBlock with q := 9, results := [{}], port := [.reset] } : State).block ∧
    openBlock ≠ { openBlock with q := 9, results := [{}], port := [.reset] } ∧
    (∃ t, exec (.regLookup 5) openBlock = .next t) ∧
    refusalOf (exec (.envDecode 65 none) openBlock) = some .frameTooLong :=
  ⟨by decide, by decide, ⟨_, rfl⟩, by decide⟩

theorem witness_NamesHaveNoEffect :
    openBlock.eraseNames = (blockWith false .building [{ entry5 with name := 0x22 }]).eraseNames ∧
    openBlock ≠ blockWith false .building [{ entry5 with name := 0x22 }] ∧
    (∃ t r, exec (.regRegister 6 0 0xFF) openBlock = .next t ∧ t.results = openBlock.results ++ [r]) :=
  ⟨by decide, by decide, _, _, rfl, rfl⟩

theorem witness_WritesAreSeenByTheNextRequest :
    (1 < 2 ∧ ∃ t, exec (.cfgWrite 0 1) openBlock = .next t) ∧
    (openBlock.Inv ∧ ∃ t, exec (.regRegister 6 3 0xFF) openBlock = .next t ∧
      t.results = openBlock.results ++ [{ index := 1 }]) ∧
    (5 < 2 ^ 16 ∧ ∃ t, exec .regClear openBlock = .next t) ∧
    (∃ p p', 4 ≤ openBlock.cfg.maxFrame ∧
      parseEnvelope [0, 1, 6, 0] 4 openBlock.extEn = some p ∧
      dispatch p.id openBlock = (.unknownFrameId, some .unknown) ∧
      parseEnvelope [1, 1, 5, 0] 4 openBlock.extEn = some p' ∧
      dispatch p'.id openBlock = (.ok, some (.codec 1))) :=
  ⟨⟨by decide, _, rfl⟩, ⟨open_inv, _, rfl, rfl⟩, ⟨by decide, _, rfl⟩, _, _, by decide, rfl, rfl, rfl, rfl⟩

/-- Each clause at an end of its range: 256, 0 with 2, 0 with 0 and 1, 1 and 255. -/
theorem witness_CfgWriteOfEveryRegister :
    CompletesWith (.cfgWrite 256 0) openBlock { status := .fieldOverflow, info := .operand .reg } ∧
    CompletesWith (.cfgWrite 0 2) openBlock { status := .fieldOverflow, info := .operand .value } ∧
    CompletesWith (.cfgWrite 0 0) openBlock {} ∧
    resultOf (exec (.cfgWrite 0 1) openBlock) = some {} ∧
    CompletesWith (.cfgWrite 1 0) openBlock { status := .illegalOperation, info := .operand .reg } ∧
    CompletesWith (.cfgWrite 255 0) openBlock { status := .illegalOperation, info := .operand .reg } :=
  ⟨rfl, rfl, rfl, rfl, rfl, rfl⟩

theorem witness_CfgReadOfEveryRegister :
    CompletesWith (.cfgRead 256) openBlock { status := .fieldOverflow, info := .operand .reg } ∧
    CompletesWith (.cfgRead 0) openBlock { value := 0 } ∧
    CompletesWith (.cfgRead 0) (sealedBlock true) { value := 1 } ∧
    CompletesWith (.cfgRead 1) openBlock { value := 4 } ∧
    CompletesWith (.cfgRead 1) (sealedBlock false) { value := 9 } ∧
    CompletesWith (.cfgRead 1) abortedBlock { value := 10 } ∧
    CompletesWith (.cfgRead 2) openBlock { status := .illegalOperation, info := .operand .reg } ∧
    CompletesWith (.cfgRead 255) openBlock { status := .illegalOperation, info := .operand .reg } :=
  ⟨rfl, rfl, rfl, rfl, rfl, rfl, rfl, rfl⟩

theorem witness_RegStatusFitsItsRegister : abortedBlock.Inv := aborted_inv

theorem witness_DescriptorSetsAreWellFormed : configWellFormed Config.testVectors = true := by decide

theorem witness_PackAndUnpackAreInverse :
    descSetWellFormed extSet = true ∧ [1, 1, 15, 3].length = fieldCount extSet ∧
    (∀ i < fieldCount extSet, [1, 1, 15, 3].getD i 0 < 2 ^ fieldWidth extSet i) ∧ 255 < 2 ^ extSet.bits := by decide

/-- The clauses at their ends: dset 256, 3 and 2; four and five lanes; a Bool, a UInt and an enumeration
that do not fit, the lowest first. -/
theorem witness_BfPackEveryCase :
    CompletesWith (.bfPack 256 []) openBlock { status := .fieldOverflow, info := .operand .dset } ∧
    CompletesWith (.bfPack 255 []) openBlock { status := .illegalOperation, info := .operand .dset } ∧
    CompletesWith (.bfPack 3 []) openBlock { status := .illegalOperation, info := .operand .dset } ∧
    (descSets openBlock.cfg)[0]? = some lcmdSet ∧
    CompletesWith (.bfPack 0 [0, 2, 0, 0]) openBlock { status := .illegalOperation, info := .operand .values } ∧
    CompletesWith (.bfPack 0 [1, 3, 3, 1, 3]) openBlock { c := 0xFF } ∧
    CompletesWith (.bfPack 0 [2, 4, 0, 0, 0]) openBlock { status := .fieldOverflow, info := .field 0 } ∧
    CompletesWith (.bfPack 0 [1, 4, 0, 0, 0]) openBlock { status := .fieldOverflow, info := .field 1 } ∧
    CompletesWith (.bfPack 0 [1, 3, 3, 1, 4]) openBlock { status := .unknownEnumValue, info := .field 4 } :=
  ⟨rfl, rfl, rfl, rfl, rfl, rfl, rfl, rfl, rfl⟩

theorem witness_BfUnpackEveryCase :
    CompletesWith (.bfUnpack 256 0) openBlock { status := .fieldOverflow, info := .operand .dset } ∧
    CompletesWith (.bfUnpack 255 0) openBlock { status := .illegalOperation, info := .operand .dset } ∧
    CompletesWith (.bfUnpack 3 0) openBlock { status := .illegalOperation, info := .operand .dset } ∧
    (descSets openBlock.cfg)[2]? = some extSet ∧
    CompletesWith (.bfUnpack 2 256) openBlock { status := .fieldOverflow, info := .operand .c } ∧
    CompletesWith (.bfUnpack 2 255) openBlock { values := [1, 1, 15, 3] } :=
  ⟨rfl, rfl, rfl, rfl, rfl, rfl⟩

theorem witness_FcEncCmdEveryCase :
    CompletesWith (.fcEncCmd 3 3 1 3) openBlock { b := 0xFE, rsv := 0b00111#5 } ∧
    CompletesWith (.fcEncCmd 4 4 2 4) openBlock { status := .fieldOverflow, info := .operand .networkIndex } ∧
    CompletesWith (.fcEncCmd 3 4 2 4) openBlock { status := .unknownEnumValue, info := .operand .callbackType } ∧
    CompletesWith (.fcEncCmd 3 3 2 4) openBlock { status := .fieldOverflow, info := .operand .callbackPending } ∧
    CompletesWith (.fcEncCmd 3 3 1 4) openBlock { status := .unknownEnumValue, info := .operand .sleepMode } :=
  ⟨rfl, rfl, rfl, rfl, rfl⟩

theorem witness_FcEncRspEveryCase :
    CompletesWith (.fcEncRsp 3 3 1 1 1) openBlock { b := 0xFF, rsv := 0b00001#5 } ∧
    CompletesWith (.fcEncRsp 4 4 2 2 2) openBlock { status := .fieldOverflow, info := .operand .networkIndex } ∧
    CompletesWith (.fcEncRsp 3 4 2 2 2) openBlock { status := .unknownEnumValue, info := .operand .callbackType } ∧
    CompletesWith (.fcEncRsp 3 3 2 2 2) openBlock { status := .fieldOverflow, info := .operand .callbackPending } ∧
    CompletesWith (.fcEncRsp 3 3 1 2 2) openBlock { status := .fieldOverflow, info := .operand .truncated } ∧
    CompletesWith (.fcEncRsp 3 3 1 1 2) openBlock { status := .fieldOverflow, info := .operand .overflow } :=
  ⟨rfl, rfl, rfl, rfl, rfl, rfl⟩

theorem witness_FcEncExtEveryCase :
    CompletesWith (.fcEncExt 1 1 15 3) openBlock { x := 0xFF, rsv := 0b11000#5 } ∧
    CompletesWith (.fcEncExt 2 2 16 4) openBlock { status := .fieldOverflow, info := .operand .securityEnabled } ∧
    CompletesWith (.fcEncExt 1 2 16 4) openBlock { status := .fieldOverflow, info := .operand .paddingEnabled } ∧
    CompletesWith (.fcEncExt 1 1 16 4) openBlock { status := .fieldOverflow, info := .operand .reserved } ∧
    CompletesWith (.fcEncExt 1 1 15 4) openBlock { status := .unknownEnumValue, info := .operand .frameFormatVersion } :=
  ⟨rfl, rfl, rfl, rfl, rfl⟩

theorem witness_FcDecEveryCase :
    CompletesWith (.fcDec 256) openBlock { status := .fieldOverflow, info := .operand .b } ∧
    CompletesWith (.fcDec 254) openBlock
      { legacy := { networkIndex := 3, callbackType := .reserved, callbackPending := true, sleepMode := .reserved }
        rsv := 0b00111#5 } ∧
    CompletesWith (.fcDec 255) openBlock
      { legacy := { kind := .response, networkIndex := 3, callbackType := .reserved, callbackPending := true,
                    truncated := true, overflow := true }
        rsv := 0b00001#5 } := ⟨rfl, rfl, rfl⟩

theorem witness_FcDecExtEveryCase :
    CompletesWith (.fcDecExt 256) openBlock { status := .fieldOverflow, info := .operand .x } ∧
    CompletesWith (.fcDecExt 255) openBlock
      { ext := { securityEnabled := true, paddingEnabled := true, reserved := 15, frameFormatVersion := .reserved3 }
        rsv := 0b11000#5 } := ⟨rfl, rfl⟩

theorem witness_ControlByteRoundTrips :
    encodeCmd 3 3 1 3 = .ok 0xFE ∧ encodeRsp 3 3 1 1 1 = .ok 0xFF ∧ encodeExt 1 1 15 3 = .ok 0xFF ∧
    (0xFE#8).getLsbD 0 = false ∧ (0xFF#8).getLsbD 0 = true := by decide

theorem witness_EveryByteDecodes :
    255 < 2 ^ 8 ∧ 2 ^ 8 ≤ 256 ∧ (resultOf (exec (.bfUnpack 1 255) openBlock)).map (·.status) = some .ok ∧
    (resultOf (exec (.fcDecExt 256) openBlock)).map (·.status) = some .fieldOverflow := by decide

theorem witness_FindIsTheRegisteredIndex : fullBlock.Inv ∧ find 0 fullBlock = some 1 ∧ find 6 fullBlock = none :=
  ⟨full_inv, by decide, by decide⟩

/-- The clauses at their ends: id 0x10000, sel 4 and 3, name 0x100 and 0xFF, the three states, a duplicate,
a full table and a free one. -/
theorem witness_RegRegisterEveryCase :
    CompletesWith (.regRegister 0x10000 4 0x100) openBlock { status := .fieldOverflow, info := .operand .id } ∧
    CompletesWith (.regRegister 0xFFFF 4 0x100) openBlock { status := .fieldOverflow, info := .operand .sel } ∧
    CompletesWith (.regRegister 0xFFFF 3 0x100) openBlock { status := .fieldOverflow, info := .operand .name } ∧
    CompletesWith (.regRegister 0xFFFF 3 0xFF) (sealedBlock false) { status := .registryLocked } ∧
    CompletesWith (.regRegister 0xFFFF 3 0xFF) abortedBlock { status := .registryAborted } ∧
    (openBlock.regState = .building ∧ openBlock.Registered (BitVec.ofNat 16 5)) ∧
    (fullBlock.regState = .building ∧ ¬ fullBlock.Registered (BitVec.ofNat 16 6) ∧
      fullBlock.regCount = fullBlock.cfg.nReg) ∧
    (openBlock.regState = .building ∧ ¬ openBlock.Registered (BitVec.ofNat 16 6) ∧
      openBlock.regCount ≠ openBlock.cfg.nReg) :=
  ⟨rfl, rfl, rfl, rfl, rfl, ⟨rfl, open_registered⟩, ⟨rfl, full_not_registered, rfl⟩, rfl, open_not_registered,
    by decide⟩

theorem witness_RegLookupEveryCase :
    CompletesWith (.regLookup 0x10000) openBlock { status := .fieldOverflow, info := .operand .id } ∧
    CompletesWith (.regLookup 0xFFFF) abortedBlock { status := .registryAborted } ∧
    ¬ openBlock.Registered (BitVec.ofNat 16 6) ∧
    CompletesWith (.regLookup 6) openBlock { status := .unknownFrameId, info := .operand .id } ∧
    (fullBlock.Inv ∧ fullBlock.HoldsAt 1 (BitVec.ofNat 16 0)) ∧
    CompletesWith (.regLookup 0) fullBlock { sel := 0, name := 1, index := 1 } :=
  ⟨rfl, rfl, open_not_registered, rfl, ⟨full_inv, by decide⟩, rfl⟩

theorem witness_RegSealAndRegClearEveryCase : abortedBlock.regState = .aborted ∧ openBlock.regState ≠ .aborted := by
  decide

/-- A registration that is accepted, one that aborts, and a lookup, with entry 0 held before. -/
theorem witness_RegistrationsPersist :
    openBlock.Inv ∧ openBlock.HoldsAt 0 5 ∧
    (∃ t, exec (.regRegister 6 0 0) openBlock = .next t ∧ t.results = openBlock.results ++ [{ index := 1 }] ∧
      t.regState ≠ .aborted) ∧
    (∃ t, exec (.regRegister 5 0 0) openBlock = .next t ∧ t.regState = .aborted) :=
  ⟨open_inv, by decide, ⟨_, rfl, rfl, by decide⟩, _, rfl, rfl⟩

/-- 65 bytes; a length that is not the buffer's; 3 bytes in the legacy format and 4 in the extended. -/
theorem witness_EnvDecodeErrors :
    refusalOf (exec (.envDecode 65 (some [])) openBlock) = some .frameTooLong ∧
    CompletesWith (.envDecode 64 (some [])) openBlock { status := .illegalOperation, info := .operand .len } ∧
    CompletesWith (.envDecode 3 (some [0, 1, 5])) openBlock { status := .malformedHeader, info := .operand .len } ∧
    CompletesWith (.envDecode 4 (some [0, 1, 5, 0])) (sealedBlock true)
      { status := .malformedHeader, info := .operand .len } := ⟨rfl, rfl, rfl, rfl⟩

/-- The three outcomes of dispatch on the shortest frame, and the longest frame. -/
theorem witness_EnvDecodeLegacyFrame :
    openBlock.extEn = false ∧ ([0, 1, 5, 0] ++ List.replicate 60 (0 : Byte)).length ≤ openBlock.cfg.maxFrame ∧
    (openBlock.Inv ∧ openBlock.regState ≠ .aborted ∧ openBlock.HoldsAt 0 ((0 : Byte) ++ (5 : Byte))) ∧
    ¬ openBlock.Registered ((0 : Byte) ++ (6 : Byte)) ∧
    (abortedBlock.extEn = false ∧ abortedBlock.regState = .aborted) :=
  ⟨rfl, by decide, ⟨open_inv, by decide, by decide⟩, open_not_registered, rfl, rfl⟩

theorem witness_EnvDecodeExtendedFrame :
    (sealedBlock true).extEn = true ∧
    ([0, 1, 0, 5, 0] ++ List.replicate 59 (0 : Byte)).length ≤ (sealedBlock true).cfg.maxFrame ∧
    ((sealedBlock true).Inv ∧ (sealedBlock true).regState ≠ .aborted ∧
      (sealedBlock true).HoldsAt 0 ((0 : Byte) ++ (5 : Byte))) ∧
    ¬ (sealedBlock true).Registered ((0 : Byte) ++ (6 : Byte)) ∧
    ({ abortedBlock with extEn := true } : State).regState = .aborted :=
  ⟨rfl, by decide, ⟨sealed_inv true, by decide, by decide⟩, find_eq_none_iff.1 (by decide), rfl⟩

/-- A malformed frame and one to UNKNOWN, then later requests that are answered and some that are refused. -/
theorem witness_FailedDecodesAreLocal :
    (∃ t r, exec (.envDecode 0 (some [])) openBlock = .next t ∧ t.results = openBlock.results ++ [r] ∧
      r.status = .malformedHeader) ∧
    (∃ t r, exec (.envDecode 4 (some [0, 1, 6, 0])) openBlock = .next t ∧ t.results = openBlock.results ++ [r] ∧
      r.status = .unknownFrameId) ∧
    (∃ u, execAll [.regLookup 5, .envDecode 4 (some [0, 1, 5, 0]), .regSeal] openBlock = .next u) ∧
    refusalOf (execAll [.regSeal, .envDecode 65 none] openBlock) = some .frameTooLong :=
  ⟨⟨_, _, rfl, rfl, rfl⟩, ⟨_, _, rfl, rfl, rfl⟩, ⟨_, rfl⟩, rfl⟩

/-- Each clause at an end of its range, the later operands wrong as well. -/
theorem witness_EnvEncodeErrors :
    CompletesWith (.envEncode { seq := 256, kind := 2 } (some [])) openBlock
      { status := .fieldOverflow, info := .operand .seq } ∧
    CompletesWith (.envEncode { seq := 255, kind := 2, networkIndex := 4 } (some [])) openBlock
      { status := .fieldOverflow, info := .operand .kind } ∧
    CompletesWith (.envEncode { kind := 0, networkIndex := 4, id := 0x10000 } (some [])) openBlock
      { status := .fieldOverflow, info := .operand .networkIndex } ∧
    CompletesWith (.envEncode { kind := 1, overflow := 2, id := 0x10000 } (some [])) openBlock
      { status := .fieldOverflow, info := .operand .overflow } ∧
    CompletesWith (.envEncode { kind := 1, reserved := 16, id := 0x10000 } (some [])) (sealedBlock true)
      { status := .fieldOverflow, info := .operand .reserved } ∧
    CompletesWith (.envEncode { kind := 1, reserved := 16, id := 0x10000 } (some [])) openBlock
      { status := .fieldOverflow, info := .operand .id } ∧
    refusalOf (exec (.envEncode { id := 0xFFFF } (some (List.replicate 61 0))) openBlock) =
      some .encodedFrameTooLong := ⟨rfl, rfl, rfl, rfl, rfl, rfl, rfl⟩

/-- EN19 and EN17 with `reserved` at 15: both formats, the longest frames that are sent. -/
theorem witness_EnvEncodeFrame :
    CompletesWith (.envEncode { seq := 255, kind := 0, id := 0xFFFF } (some [])) openBlock
      { len := 4, frame := [0xFF, 0x00, 0xFF, 0xFF] } ∧
    CompletesWith (.envEncode { seq := 0, kind := 1, reserved := 15, id := 0 } (some [])) (sealedBlock true)
      { len := 5, frame := [0x00, 0x01, 0x3C, 0x00, 0x00], rsv := 0b01000#5 } ∧
    4 + openBlock.extEn.toNat + (List.replicate 60 (0 : Byte)).length ≤ openBlock.cfg.maxFrame ∧
    4 + (sealedBlock true).extEn.toNat + (List.replicate 59 (0 : Byte)).length ≤ (sealedBlock true).cfg.maxFrame :=
  ⟨rfl, rfl, by decide, by decide⟩

theorem witness_MissingBuffersAreIllegal :
    CompletesWith (.envDecode 64 none) openBlock { status := .illegalOperation, info := .operand .frame } ∧
    refusalOf (exec (.envDecode 65 none) openBlock) = some .frameTooLong := ⟨rfl, rfl⟩

theorem witness_EncodedFramesDecodeToTheirOperands :
    ∃ t r, exec (.envEncode { seq := 255, kind := 1, networkIndex := 3, callbackType := 3, truncated := 1, id := 0xFFFF }
        (some [0x55])) openBlock = .next t ∧ t.results = openBlock.results ++ [r] ∧ r.status = .ok ∧
      fullBlock.extEn = openBlock.extEn ∧ fullBlock.cfg = openBlock.cfg := ⟨_, _, rfl, rfl, rfl, rfl, rfl⟩

theorem witness_DecodedFramesEncodeToTheirBytes :
    ∃ t r, exec (.envDecode [0xFF, 0xFF, 0xFF, 0x34, 0x12, 0x55].length (some [0xFF, 0xFF, 0xFF, 0x34, 0x12, 0x55]))
        (sealedBlock true) = .next t ∧ t.results = (sealedBlock true).results ++ [r] ∧ r.status ≠ .malformedHeader ∧
      ({ State.reset with extEn := true } : State).cfg = (sealedBlock true).cfg :=
  ⟨_, _, rfl, rfl, by decide, rfl⟩

end Sys2Proof.Tests
end

section
/-! The byte-buffer accesses `memRead` and `memWrite` (spec 00_scope.md R9, 20_memory.md R38), byte by byte
and at every offset, and the identifier of an envelope at offset `2 + e` (30_encoding.md R55, R57). -/

namespace Sys2Proof.Machine

/-! ### One byte -/

/-- A write at an offset up to the end extends the buffer by at most the byte written. -/
theorem length_putByte {buf : List Byte} {off : Nat} (b : Byte) (h : off ≤ buf.length) :
    (putByte buf off b).length = max buf.length (off + 1) := by
  unfold putByte
  split <;> (simp; omega)

theorem getD_putByte_same {buf : List Byte} {off : Nat} (b : Byte) (h : off ≤ buf.length) :
    (putByte buf off b).getD off 0 = b := by
  rcases h.lt_or_eq with hin | hend
  · simp [putByte, hin]
  · rw [putByte_end b hend]; simp [hend]

theorem getD_putByte_ne {buf : List Byte} {off k : Nat} (b : Byte) (h : off ≤ buf.length) (hk : k ≠ off) :
    (putByte buf off b).getD k 0 = buf.getD k 0 := by
  rcases h.lt_or_eq with hin | hend
  · simp [putByte, hin, hk.symm]
  · rw [putByte_end b hend]
    rcases Nat.lt_or_gt_of_ne (hend ▸ hk) with hlt | hgt
    · exact List.getD_append _ _ _ _ hlt
    · rw [List.getD_eq_default _ _ (by simp; omega), List.getD_eq_default _ _ hgt.le]

/-- The rest of a write starts at an offset up to the end as well. -/
theorem le_length_putByte {buf : List Byte} {off : Nat} (b : Byte) (h : off ≤ buf.length) :
    off + 1 ≤ (putByte buf off b).length := by
  rw [length_putByte b h]; omega

/-! ### Several bytes -/

/-- R9: a read is little-endian, byte `off + j` with the weight `2 ^ (8 * j)`. -/
theorem memRead_eq_sum (buf : List Byte) (off n : Nat) :
    memRead buf off n = ∑ j ∈ Finset.range n, (buf.getD (off + j) 0).toNat * 2 ^ (8 * j) := by
  induction n generalizing off with
  | zero => rfl
  | succ n ih =>
    rw [memRead, ih, Finset.sum_range_succ', Finset.mul_sum, add_comm]
    congr 1
    · refine Finset.sum_congr rfl fun j _ => ?_
      rw [show off + 1 + j = off + (j + 1) by omega]
      ring
    · simp

theorem memRead_two (buf : List Byte) (off : Nat) :
    memRead buf off 2 = (buf.getD off 0).toNat + 2 ^ 8 * (buf.getD (off + 1) 0).toNat := by
  simp [memRead]

theorem length_memWrite {buf : List Byte} {off : Nat} (n v : Nat) (h : off ≤ buf.length) :
    (memWrite buf off n v).length = max buf.length (off + n) := by
  induction n generalizing buf off v with
  | zero => simp [memWrite, h]
  | succ n ih =>
    rw [memWrite, ih _ (le_length_putByte _ h), length_putByte _ h]
    omega

/-- The frame of a write: every byte at another offset stays. -/
theorem getD_memWrite_outside {buf : List Byte} {off k : Nat} (n v : Nat) (h : off ≤ buf.length)
    (hk : k < off ∨ off + n ≤ k) : (memWrite buf off n v).getD k 0 = buf.getD k 0 := by
  induction n generalizing buf off v with
  | zero => rfl
  | succ n ih =>
    rw [memWrite, ih _ (le_length_putByte _ h) (by omega), getD_putByte_ne _ h (by omega)]

/-- The first byte written is not written again by the rest of the write. -/
theorem getD_memWrite_succ_first {buf : List Byte} {off : Nat} (n v : Nat) (h : off ≤ buf.length) :
    (memWrite buf off (n + 1) v).getD off 0 = BitVec.ofNat 8 v := by
  rw [memWrite, getD_memWrite_outside _ _ (le_length_putByte _ h) (by omega), getD_putByte_same _ h]

theorem getD_memWrite_inside {buf : List Byte} {off n j : Nat} (v : Nat) (h : off ≤ buf.length)
    (hj : j < n) : (memWrite buf off n v).getD (off + j) 0 = BitVec.ofNat 8 (v / 2 ^ (8 * j)) := by
  induction n generalizing buf off v j with
  | zero => omega
  | succ n ih =>
    cases j with
    | zero => simpa using getD_memWrite_succ_first n v h
    | succ j =>
      have hrest := ih (v >>> 8) (le_length_putByte (BitVec.ofNat 8 v) h) (Nat.lt_of_succ_lt_succ hj)
      rw [memWrite, show off + (j + 1) = off + 1 + j by omega, hrest, Nat.shiftRight_eq_div_pow,
        Nat.div_div_eq_div_mul, ← pow_add]
      congr 3; omega

/-- Reading back what was written gives the value at the width of the access. -/
theorem memRead_memWrite {buf : List Byte} {off : Nat} (n v : Nat) (h : off ≤ buf.length) :
    memRead (memWrite buf off n v) off n = v % 2 ^ (8 * n) := by
  induction n generalizing buf off v with
  | zero => simp [memRead, Nat.mod_one]
  | succ n ih =>
    have hrest := ih (v >>> 8) (le_length_putByte (BitVec.ofNat 8 v) h)
    rw [memRead, getD_memWrite_succ_first n v h, memWrite, hrest, BitVec.toNat_ofNat,
      Nat.shiftRight_eq_div_pow, ← Nat.mod_mul, ← pow_add]
    congr 2; omega

/-! ### The identifier of an envelope -/

/-- The parser reads the identifier as two bytes at offset `2 + e`. -/
theorem parseEnvelope_id {frame : List Byte} {len : Nat} {e : Bool} {p : DeliveryRecord}
    (h : parseEnvelope frame len e = some p) :
    p.id = frame.getD (3 + e.toNat) 0 ++ frame.getD (2 + e.toNat) 0 := by
  unfold parseEnvelope at h
  split at h
  · cases h
  · cases h
    rw [memRead_two, ofNat_two_bytes, show 2 + e.toNat + 1 = 3 + e.toNat by omega]

/-- The formatter puts the identifier at offset `2 + e`, low byte first. -/
theorem formatEnvelope_id (seq id : Nat) (b : Byte) (x : Option Byte) (payload : List Byte) :
    (formatEnvelope seq b x id payload).getD (2 + x.isSome.toNat) 0 = BitVec.ofNat 8 id ∧
    (formatEnvelope seq b x id payload).getD (3 + x.isSome.toNat) 0 = BitVec.ofNat 8 (id / 256) := by
  cases x with
  | none => simp [formatEnvelope_legacy]
  | some x => simp [formatEnvelope_extended]

/-- Settles O4, from the byte-by-byte laws of `memRead` and `memWrite`, each by induction on the width of
the access, and the parser's and the formatter's identifier. -/
theorem bufferAccessesAreByteGranular : Obligations.BufferAccessesAreByteGranular :=
  ⟨fun buf off n _ => memRead_eq_sum buf off n,
    fun _ _ n v h => ⟨length_memWrite n v h, fun _ hj => getD_memWrite_inside v h hj,
      fun _ hk => getD_memWrite_outside n v h hk, memRead_memWrite n v h⟩,
    fun _ _ _ h => parseEnvelope_id h,
    formatEnvelope_id⟩

end Sys2Proof.Machine
end

section
/-! The invariant `State.Inv` (10_state.md R25 (a) to (c), R24, R26): it holds at power-on, and every effect of
a request and so every step keeps it. -/

namespace Sys2Proof.Machine

variable {s t : State}

/-! ### States that meet the invariant -/

/-- The invariant reads the parameters, the table with its count, and the log. -/
theorem State.Inv.of_same_table (h : s.Inv) (hcfg : t.cfg = s.cfg) (hcount : t.regCount = s.regCount)
    (hentries : t.entries = s.entries) (hlog : ∀ d ∈ t.dlog, d.Allowed s.cfg) : t.Inv := by
  have hentry (i : Nat) : entryAt i t = entryAt i s := by simp only [entryAt, hentries]
  constructor <;> simp only [hcfg, hcount, hentries, hentry]
  exacts [h.config, h.table, h.count, h.valid, h.unique, h.widths, h.zeroed, hlog]

/-- A table of zeroed entries, as power-on, reset and REG_CLEAR leave it, meets the invariant. -/
theorem inv_of_empty_table (hconfig : configWellFormed t.cfg = true)
    (hentries : t.entries = List.replicate t.cfg.nReg {}) (hcount : t.regCount = 0)
    (hlog : ∀ d ∈ t.dlog, d.Allowed t.cfg) : t.Inv := by
  have hentry (i : Nat) : entryAt i t = {} := by
    rw [entryAt, hentries, List.getD_eq_getElem?_getD, List.getElem?_replicate]; split <;> rfl
  have hmem : ∀ e ∈ t.entries, e = {} := fun e he => List.eq_of_mem_replicate (hentries ▸ he)
  constructor
  case config => exact hconfig
  case table => simp [hentries]
  case count => simp [hcount]
  case valid => simp [hentry, hcount]
  case unique => simp [hentry]
  case widths => intro e he; simp [hmem e he]
  case zeroed => exact fun e he _ => hmem e he
  case log => exact hlog

/-- The invariant does not read the port. -/
theorem State.Inv.with_port (h : s.Inv) (rest : List PortEvent) : ({ s with port := rest } : State).Inv :=
  h.of_same_table rfl rfl rfl h.log

theorem powerOn_inv {c : Config} (h : configWellFormed c = true) : (State.powerOn c).Inv :=
  inv_of_empty_table h rfl rfl (by simp)

theorem takeReset_keeps_inv (h : s.Inv) : (takeReset s).Inv := inv_of_empty_table h.config rfl rfl h.log

/-! ### Inserting an entry -/

/-- A new id with fields in their widths goes to the first free index. -/
theorem insertEntry_keeps_inv (h : s.Inv) {e : Entry} (hfree : s.regCount ≠ s.cfg.nReg) (hvalid : e.valid = true)
    (hnew : ¬ s.Registered e.id) (hsel : e.sel < 2 ^ s.cfg.wSel) (hname : e.name < 2 ^ s.cfg.wName) :
    (insertEntry e s).Inv := by
  have hlt : s.regCount < s.cfg.nReg := h.count.lt_of_ne hfree
  have hself : entryAt s.regCount (insertEntry e s) = e := entryAt_insertEntry_self (h.table ▸ hlt)
  have hother {i : Nat} (hi : i ≠ s.regCount) : entryAt i (insertEntry e s) = entryAt i s :=
    entryAt_insertEntry_ne hi
  have hdiff {i : Nat} (hi : i < s.cfg.nReg) (hv : (entryAt i s).valid = true) : (entryAt i s).id ≠ e.id :=
    fun hid => hnew ⟨i, (h.valid i hi).1 hv, hv, hid⟩
  have hmem {e' : Entry} (he' : e' ∈ (insertEntry e s).entries) : e' ∈ s.entries ∨ e' = e :=
    List.mem_or_eq_of_mem_set he'
  constructor
  case config => exact h.config
  case table => simpa using h.table
  case count => simpa using hlt
  case valid =>
    intro i hi
    rcases eq_or_ne i s.regCount with rfl | hne
    · simp [hself, hvalid]
    · rw [hother hne, h.valid i hi, insertEntry_regCount]; omega
  case unique =>
    intro i hi j hj hvi hvj hid
    rcases eq_or_ne i s.regCount with rfl | hni <;> rcases eq_or_ne j s.regCount with rfl | hnj
    · rfl
    · rw [hother hnj] at hvj hid; rw [hself] at hid
      exact absurd hid.symm (hdiff hj hvj)
    · rw [hother hni] at hvi hid; rw [hself] at hid
      exact absurd hid (hdiff hi hvi)
    · rw [hother hni] at hvi hid; rw [hother hnj] at hvj hid
      exact h.unique i hi j hj hvi hvj hid
  case widths =>
    intro e' he'
    rcases hmem he' with hold | rfl
    · exact h.widths e' hold
    · exact ⟨hsel, hname⟩
  case zeroed =>
    intro e' he' hinv
    rcases hmem he' with hold | rfl
    · exact h.zeroed e' hold hinv
    · rw [hvalid] at hinv; cases hinv
  case log => exact h.log

/-! ### Delivering -/

/-- A codec port that `dispatch` answers is in the width of SEL. -/
theorem State.Inv.dispatch_codec_lt (h : s.Inv) {id : FrameId} {st : Status} {k : Nat}
    (hd : dispatch id s = (st, some (.codec k))) : k < 2 ^ s.cfg.wSel := by
  rcases dispatch_cases id s with ⟨-, hd'⟩ | ⟨-, -, hd'⟩ | ⟨-, i, hf, hd'⟩ <;> rw [hd] at hd' <;> cases hd'
  obtain ⟨-, hv, -⟩ := holdsAt_of_find hf
  have hi := lt_length_of_valid hv
  rw [entryAt_eq_getElem hi]
  exact (h.widths _ (List.getElem_mem hi)).1

/-- What ENV_DECODE delivers is allowed. -/
theorem State.Inv.delivery_allowed (h : s.Inv) {bytes : List Byte} {p : DeliveryRecord} {st : Status} {port : OutPort}
    (hlen : bytes.length ≤ s.cfg.maxFrame) (hp : parseEnvelope bytes bytes.length s.extEn = some p)
    (hd : dispatch p.id s = (st, some port)) : Delivery.Allowed s.cfg { port := port, record := p } := by
  obtain ⟨hplen, hpresent, hext, htotal⟩ := parseEnvelope_facts hp
  refine ⟨?_, hplen, fun hfalse => hext (hpresent ▸ hfalse), htotal.trans_le hlen⟩
  cases port with
  | codec k => exact h.dispatch_codec_lt hd
  | unknown => trivial

/-! ### Requests and steps -/

theorem Effect.keeps_inv {i : Instr} {r : Result} {s' : State} (he : Effect i s r s') (h : s.Inv) : s'.Inv := by
  cases he with
  | quiet => exact h
  | selecting | aborting | sealing => exact h.of_same_table rfl rfl rfl h.log
  | inserting id sel name _ _ _ hsel hname hreg hfull => exact insertEntry_keeps_inv h hfull rfl hreg hsel hname
  | clearing => exact inv_of_empty_table h.config rfl rfl h.log
  | delivering bytes p st port _ hlen hp hd =>
    refine h.of_same_table rfl rfl rfl fun d hmem => ?_
    rcases List.mem_append.1 hmem with hold | hnew
    · exact h.log d hold
    · rw [List.mem_singleton.1 hnew]; exact h.delivery_allowed hlen hp hd

theorem exec_keeps_inv {i : Instr} (h : s.Inv) (hx : exec i s = .next t) : t.Inv := by
  obtain ⟨r, s', he, rfl⟩ := exec_effect hx
  have h' : s'.Inv := he.keeps_inv h
  exact h'.of_same_table rfl rfl rfl h'.log

/-- Settles O14: an idle step changes nothing, a reset leaves an empty table, and each effect of a request
keeps the invariant. -/
theorem everyStepKeepsTheInvariant : Obligations.EveryStepKeepsTheInvariant := by
  intro s t h hstep
  rcases step_cases hstep with ⟨-, rfl⟩ | ⟨rest, -, rfl⟩ | ⟨w, rest, i, -, -, hx⟩
  · exact h
  · exact takeReset_keeps_inv (h.with_port rest)
  · exact exec_keeps_inv (h.with_port rest) hx

/-- Settles O15, by the empty table that power-on leaves. -/
theorem powerOnMeetsTheInvariant : Obligations.PowerOnMeetsTheInvariant :=
  ⟨fun c h => ⟨by simp [configure, h], powerOn_inv h⟩, fun c h => by simp [configure, h], powerOn_inv (by decide)⟩

end Sys2Proof.Machine
end

section
/-! A request's answer depends on the block state and the parameters alone (10_state.md R14, R26, R27): from
a state with its history taken away every instruction answers the same, and the history stands before
what it appends. Along the way: which requests complete (R32, I6). -/

namespace Sys2Proof.Machine

/-! ### Taking the history away and putting it back -/

/-- The block state and the parameters of a state, with no history, no request index and an empty port. -/
def State.withoutHistory (s : State) : State := { s with dlog := [], q := 0, port := [], results := [] }

/-- The block of `t`, its history after the history of `s`. -/
def State.afterHistory (s t : State) : State :=
  { t with dlog := s.dlog ++ t.dlog, q := s.q + t.q, port := s.port, results := s.results ++ t.results }

/-- An answer, its history after the history of `s`. -/
def State.answerAfterHistory (s : State) : Answer → Answer
  | .next t => .next (s.afterHistory t)
  | .fault f => .fault f
  | .refused why => .refused why

/-- The requests that I6 refuses: a frame longer than MAX_FRAME, received or to be sent. -/
inductive TooLong (s : State) : Instr → Refusal → Prop where
  | received (len : Nat) (frame : Option (List Byte)) (h : s.cfg.maxFrame < len) :
      TooLong s (.envDecode len frame) .frameTooLong
  | sent (o : EnvelopeOperands) (payload : List Byte) (h : s.cfg.maxFrame < headerLen s.extEn + payload.length) :
      TooLong s (.envEncode o (some payload)) .encodedFrameTooLong

/-- The answer to `i` from `s`, then the answer to it from `s` without its history: both complete and differ in
that history alone, or both refuse the frame's length. -/
inductive AnswersAlike (i : Instr) (s : State) : Answer → Answer → Prop where
  | completing (t : State) : AnswersAlike i s (.next (s.afterHistory t)) (.next t)
  | refusing (why : Refusal) (h : TooLong s i why) : AnswersAlike i s (.refused why) (.refused why)

variable (s : State)

@[simp] theorem withoutHistory_extEn : s.withoutHistory.extEn = s.extEn := rfl
@[simp] theorem withoutHistory_regState : s.withoutHistory.regState = s.regState := rfl
@[simp] theorem withoutHistory_regCount : s.withoutHistory.regCount = s.regCount := rfl
@[simp] theorem withoutHistory_entries : s.withoutHistory.entries = s.entries := rfl
@[simp] theorem withoutHistory_cfg : s.withoutHistory.cfg = s.cfg := rfl
@[simp] theorem find_withoutHistory (id : FrameId) : find id s.withoutHistory = find id s := rfl
@[simp] theorem entryAt_withoutHistory (i : Nat) : entryAt i s.withoutHistory = entryAt i s := rfl
@[simp] theorem dispatch_withoutHistory (id : FrameId) : dispatch id s.withoutHistory = dispatch id s := rfl
@[simp] theorem afterHistory_withoutHistory : s.afterHistory s.withoutHistory = s := by
  simp [State.afterHistory, State.withoutHistory]

/-- The state without history is made of the block state and the parameters. -/
theorem withoutHistory_eq_of_block_eq {s s' : State} (hblock : s.block = s'.block) (hcfg : s.cfg = s'.cfg) :
    s.withoutHistory = s'.withoutHistory := by
  simp only [State.block, BlockState.mk.injEq] at hblock
  simp [State.withoutHistory, hblock, hcfg]

/-- Delivering appends to whatever the log holds. -/
theorem afterHistory_deliver (route : Route) (p : DeliveryRecord) :
    s.afterHistory (deliver route p s.withoutHistory) = deliver route p s := by
  cases route <;> simp [deliver, State.afterHistory, State.withoutHistory]

/-! ### Operations that answer alike -/

@[simp] theorem complete_afterHistory (r : Result) (t : State) :
    complete r (s.afterHistory t) = s.afterHistory (complete r t) := by
  simp [complete, State.afterHistory, Nat.add_assoc]

variable {s} {i : Instr}

theorem AnswersAlike.eq_answerAfterHistory {a a' : Answer} (h : AnswersAlike i s a a') :
    a = s.answerAfterHistory a' := by
  cases h <;> rfl

theorem AnswersAlike.completes_or_tooLong {a a' : Answer} (h : AnswersAlike i s a a') :
    (∃ t, a = .next t) ∨ ∃ why, TooLong s i why ∧ a = .refused why := by
  cases h with
  | completing t => exact .inl ⟨_, rfl⟩
  | refusing why hlong => exact .inr ⟨why, hlong, rfl⟩

theorem answersAlike_finish (r : Result) {u u' : State} (h : s.afterHistory u' = u) :
    AnswersAlike i s (finish r u) (finish r u') := by
  subst h
  rw [finish_eq, finish_eq, complete_afterHistory]
  exact .completing _

/-- An operation that writes nothing answers alike; every `raise` is one. -/
theorem answersAlike_read (r : Result) : AnswersAlike i s (finish r s) (finish r s.withoutHistory) :=
  answersAlike_finish r (afterHistory_withoutHistory s)

/-- An operation that writes block state answers alike when it writes the same values. -/
theorem answersAlike_write (r : Result) (extEn : Bool) (regState : RegState) (regCount : Nat) (entries : List Entry) :
    AnswersAlike i s (finish r { s with extEn, regState, regCount, entries })
      (finish r { s.withoutHistory with extEn, regState, regCount, entries }) :=
  answersAlike_finish r (by simp [State.afterHistory, State.withoutHistory])

variable (s)

theorem execCfgWrite_alike (reg value : Nat) :
    AnswersAlike (.cfgWrite reg value) s (execCfgWrite reg value s)
      (execCfgWrite reg value s.withoutHistory) := by
  unfold execCfgWrite
  split
  · exact answersAlike_read _
  · split
    · split
      · exact answersAlike_read _
      · exact answersAlike_write _ _ _ _ _
    · exact answersAlike_read _

theorem execCfgRead_alike (reg : Nat) :
    AnswersAlike (.cfgRead reg) s (execCfgRead reg s) (execCfgRead reg s.withoutHistory) := by
  unfold execCfgRead
  repeat' split
  all_goals exact answersAlike_read _

theorem execBfPack_alike (dset : Nat) (values : List Nat) :
    AnswersAlike (.bfPack dset values) s (execBfPack dset values s)
      (execBfPack dset values s.withoutHistory) := by
  unfold execBfPack
  rw [withoutHistory_cfg]
  repeat' split
  all_goals exact answersAlike_read _

theorem execBfUnpack_alike (dset c : Nat) :
    AnswersAlike (.bfUnpack dset c) s (execBfUnpack dset c s) (execBfUnpack dset c s.withoutHistory) := by
  unfold execBfUnpack
  rw [withoutHistory_cfg]
  repeat' split
  all_goals exact answersAlike_read _

theorem execFcEncCmd_alike (ni ct cp sm : Nat) :
    AnswersAlike (.fcEncCmd ni ct cp sm) s (execFcEncCmd ni ct cp sm s)
      (execFcEncCmd ni ct cp sm s.withoutHistory) := by
  unfold execFcEncCmd
  split <;> exact answersAlike_read _

theorem execFcEncRsp_alike (ni ct cp tr ov : Nat) :
    AnswersAlike (.fcEncRsp ni ct cp tr ov) s (execFcEncRsp ni ct cp tr ov s)
      (execFcEncRsp ni ct cp tr ov s.withoutHistory) := by
  unfold execFcEncRsp
  split <;> exact answersAlike_read _

theorem execFcEncExt_alike (se pe rs ver : Nat) :
    AnswersAlike (.fcEncExt se pe rs ver) s (execFcEncExt se pe rs ver s)
      (execFcEncExt se pe rs ver s.withoutHistory) := by
  unfold execFcEncExt
  split <;> exact answersAlike_read _

theorem execFcDec_alike (b : Nat) :
    AnswersAlike (.fcDec b) s (execFcDec b s) (execFcDec b s.withoutHistory) := by
  unfold execFcDec
  split <;> exact answersAlike_read _

theorem execFcDecExt_alike (x : Nat) :
    AnswersAlike (.fcDecExt x) s (execFcDecExt x s) (execFcDecExt x s.withoutHistory) := by
  unfold execFcDecExt
  split <;> exact answersAlike_read _

theorem execRegRegister_alike (id sel name : Nat) :
    AnswersAlike (.regRegister id sel name) s (execRegRegister id sel name s)
      (execRegRegister id sel name s.withoutHistory) := by
  unfold execRegRegister
  rw [withoutHistory_cfg]
  split
  · exact answersAlike_read _
  · split
    · exact answersAlike_read _
    · split
      · exact answersAlike_read _
      · unfold registerEntry
        rw [withoutHistory_regState]
        split
        · exact answersAlike_read _
        · exact answersAlike_read _
        · rw [find_withoutHistory]
          split
          · exact answersAlike_write _ _ _ _ _
          · rw [withoutHistory_regCount, withoutHistory_cfg]
            split
            · exact answersAlike_read _
            · exact answersAlike_write _ _ _ _ _

theorem execRegLookup_alike (id : Nat) :
    AnswersAlike (.regLookup id) s (execRegLookup id s) (execRegLookup id s.withoutHistory) := by
  unfold execRegLookup
  simp only [withoutHistory_regState, find_withoutHistory, entryAt_withoutHistory]
  repeat' split
  all_goals exact answersAlike_read _

theorem execRegSeal_alike : AnswersAlike .regSeal s (execRegSeal s) (execRegSeal s.withoutHistory) := by
  unfold execRegSeal
  rw [withoutHistory_regState]
  split
  · exact answersAlike_read _
  · exact answersAlike_write _ _ _ _ _

theorem execRegClear_alike : AnswersAlike .regClear s (execRegClear s) (execRegClear s.withoutHistory) :=
  answersAlike_write _ _ _ _ _

/-! ### The envelope operations: they answer alike or refuse the frame's length alike -/

theorem execEnvEncode_alike (o : EnvelopeOperands) (payload : Option (List Byte)) :
    AnswersAlike (.envEncode o payload) s (execEnvEncode o payload s)
      (execEnvEncode o payload s.withoutHistory) := by
  unfold execEnvEncode
  rw [withoutHistory_extEn, withoutHistory_cfg]
  split
  · exact answersAlike_read _
  · split
    · exact answersAlike_read _
    · split
      · exact .refusing _ (.sent _ _ ‹_›)
      · exact answersAlike_read _

theorem execEnvDecode_alike (len : Nat) (frame : Option (List Byte)) :
    AnswersAlike (.envDecode len frame) s (execEnvDecode len frame s)
      (execEnvDecode len frame s.withoutHistory) := by
  unfold execEnvDecode
  rw [withoutHistory_extEn, withoutHistory_cfg]
  split
  · exact .refusing _ (.received _ _ ‹_›)
  · split
    · exact answersAlike_read _
    · split
      · exact answersAlike_read _
      · split
        · exact answersAlike_read _
        · rw [dispatch_withoutHistory]
          exact answersAlike_finish _ (afterHistory_deliver s _ _)

/-! ### Every instruction -/

theorem exec_alike (i : Instr) : AnswersAlike i s (exec i s) (exec i s.withoutHistory) := by
  cases i with
  | cfgWrite reg value => exact execCfgWrite_alike s reg value
  | cfgRead reg => exact execCfgRead_alike s reg
  | bfPack dset values => exact execBfPack_alike s dset values
  | bfUnpack dset c => exact execBfUnpack_alike s dset c
  | fcEncCmd ni ct cp sm => exact execFcEncCmd_alike s ni ct cp sm
  | fcEncRsp ni ct cp tr ov => exact execFcEncRsp_alike s ni ct cp tr ov
  | fcDec b => exact execFcDec_alike s b
  | fcEncExt se pe rs ver => exact execFcEncExt_alike s se pe rs ver
  | fcDecExt x => exact execFcDecExt_alike s x
  | envEncode o payload => exact execEnvEncode_alike s o payload
  | envDecode len frame => exact execEnvDecode_alike s len frame
  | regRegister id sel name => exact execRegRegister_alike s id sel name
  | regLookup id => exact execRegLookup_alike s id
  | regSeal => exact execRegSeal_alike s
  | regClear => exact execRegClear_alike s
  | illegal | wLcmd | wLrsp | wExt => exact answersAlike_read _

/-- The history stands before what an instruction answers without it, and does nothing else. -/
theorem exec_eq_answerAfterHistory (i : Instr) :
    exec i s = s.answerAfterHistory (exec i s.withoutHistory) :=
  (exec_alike s i).eq_answerAfterHistory

theorem exec_refused_iff_withoutHistory (i : Instr) (why : Refusal) :
    exec i s = .refused why ↔ exec i s.withoutHistory = .refused why := by
  rw [exec_eq_answerAfterHistory]
  cases exec i s.withoutHistory <;> simp [State.answerAfterHistory]

/-- Settles O12: no effect touches what is framed here, and completing it appends one result. -/
theorem everyRequestReturnsOneResult : Obligations.EveryRequestReturnsOneResult := by
  intro i s t h
  obtain ⟨r, s', he, rfl⟩ := exec_effect h
  obtain ⟨hq, hresults, hcfg, hport⟩ := he.frame
  exact ⟨by simp [hq], ⟨r, by simp [hresults]⟩, by simp [hcfg], by simp [hport]⟩

/-- Settles O13, by the two refusals of `TooLong`. -/
theorem onlyLongFramesAreRefused : Obligations.OnlyLongFramesAreRefused := by
  intro i s
  rcases (exec_alike s i).completes_or_tooLong with hnext | ⟨why, hlong, hrefused⟩
  · exact .inl hnext
  · cases hlong with
    | received len frame h => exact .inr (.inl ⟨len, frame, rfl, h, hrefused⟩)
    | sent o payload h => exact .inr (.inr ⟨o, payload, rfl, h, hrefused⟩)

/-- Settles O22: the two states are one without their histories, and each answer is that state's answer
after its own history. -/
theorem historyIsNoInput : Obligations.HistoryIsNoInput := by
  intro i s s' hblock hcfg
  have hsame : s.withoutHistory = s'.withoutHistory := withoutHistory_eq_of_block_eq hblock hcfg
  refine ⟨fun why => ?_, fun t ht => ?_⟩
  · rw [exec_refused_iff_withoutHistory, hsame, ← exec_refused_iff_withoutHistory]
  · rw [exec_eq_answerAfterHistory] at ht ⊢
    rw [← hsame]
    cases hu : exec i s.withoutHistory with
    | next u =>
      obtain ⟨-, ⟨r, hr⟩, -, -⟩ := everyRequestReturnsOneResult i _ _ hu
      have hr : u.results = [r] := hr
      rw [hu] at ht
      cases ht
      exact ⟨_, r, u.dlog, rfl, rfl, by simp [State.afterHistory, hr], by simp [State.afterHistory, hr], rfl, rfl⟩
    | fault f => cases f
    | refused why => rw [hu] at ht; cases ht

end Sys2Proof.Machine
end

section
/-! What a request and a step do to the parts of the state (10_state.md R18 to R29), read off the effects of
Sys2Proof/Laws/Step.lean. -/

namespace Sys2Proof.Machine

/-! ### REG_STATE (R23) -/

/-- A registration that aborts the construction: its operands are in range and its id is registered. -/
def State.RegistersTwice (s : State) (id sel name : Nat) : Prop :=
  s.regState = .building ∧ id < 2 ^ 16 ∧ sel < 2 ^ s.cfg.wSel ∧ name < 2 ^ s.cfg.wName ∧
    s.Registered (BitVec.ofNat 16 id)

variable {i : Instr} {s t s' : State} {r : Result}

theorem Effect.regState_of_registersTwice {id sel name : Nat} (he : Effect (.regRegister id sel name) s r s')
    (h : s.RegistersTwice id sel name) : s'.regState = .aborted := by
  cases he with
  | quiet _ _ _ _ _ _ hok => exact absurd h (hok _ _ _ rfl).2
  | aborting => rfl
  | inserting _ _ _ hi _ _ _ _ hreg => cases hi; obtain ⟨-, -, -, -, hheld⟩ := h; exact absurd hheld hreg
  | selecting _ _ hi | sealing hi | clearing hi | delivering _ _ _ _ hi => cases hi

theorem Effect.regState_of_not_registersTwice {id sel name : Nat} (he : Effect (.regRegister id sel name) s r s')
    (h : ¬ s.RegistersTwice id sel name) : s'.regState = s.regState := by
  cases he with
  | quiet => rfl
  | aborting _ _ _ hi hst hid hsel hname hreg => cases hi; exact absurd ⟨hst, hid, hsel, hname, hreg⟩ h
  | inserting => rfl
  | selecting _ _ hi | sealing hi | clearing hi | delivering _ _ _ _ hi => cases hi

theorem Effect.regState_of_seal_aborted (he : Effect .regSeal s r s') (h : s.regState = .aborted) :
    s'.regState = .aborted := by
  cases he with
  | quiet => exact h
  | sealing _ hst => exact absurd h hst
  | selecting _ _ hi | aborting _ _ _ hi | inserting _ _ _ hi | clearing hi | delivering _ _ _ _ hi => cases hi

theorem Effect.regState_of_seal (he : Effect .regSeal s r s') (h : s.regState ≠ .aborted) :
    s'.regState = .sealed := by
  cases he with
  | quiet _ _ _ _ hseal => exact absurd (hseal rfl) h
  | sealing => rfl
  | selecting _ _ hi | aborting _ _ _ hi | inserting _ _ _ hi | clearing hi | delivering _ _ _ _ hi => cases hi

theorem Effect.empty_of_clear (he : Effect .regClear s r s') :
    s'.regState = .building ∧ s'.regCount = 0 ∧ ∀ e ∈ s'.entries, e = {} := by
  cases he with
  | quiet _ _ _ _ _ hclear => exact absurd rfl hclear
  | clearing => exact ⟨rfl, rfl, fun _ => List.eq_of_mem_replicate⟩
  | selecting _ _ hi | aborting _ _ _ hi | inserting _ _ _ hi | sealing hi | delivering _ _ _ _ hi => cases hi

theorem Effect.regState_of_other (he : Effect i s r s') (hregister : ∀ id sel name, i ≠ .regRegister id sel name)
    (hseal : i ≠ .regSeal) (hclear : i ≠ .regClear) : s'.regState = s.regState := by
  cases he with
  | quiet | selecting | inserting | delivering => rfl
  | aborting id sel name hi => exact absurd hi (hregister id sel name)
  | sealing hi => exact absurd hi hseal
  | clearing hi => exact absurd hi hclear

/-- Settles O16, one transition of R23 at a time. -/
theorem regStateTransitions : Obligations.RegStateTransitions := by
  refine ⟨fun i s t h => ?_, rfl, rfl, rfl⟩
  obtain ⟨r, s', he, rfl⟩ := exec_effect h
  simp only [complete_regState, complete_regCount, complete_entries]
  refine ⟨?_, ?_, ?_, ?_, he.regState_of_other⟩
  · rintro id sel name rfl
    exact ⟨he.regState_of_registersTwice, he.regState_of_not_registersTwice⟩
  · rintro rfl; exact he.regState_of_seal_aborted
  · rintro rfl; exact he.regState_of_seal
  · rintro rfl; exact he.empty_of_clear

/-! ### The frame format (R21) and the delivery log (R26) -/

theorem Effect.extEn_eq_or_cfgWrite (he : Effect i s r s') :
    s'.extEn = s.extEn ∨ ∃ value, i = .cfgWrite 0 value ∧ value < 2 ∧ (s'.extEn = true ↔ value = 1) := by
  cases he with
  | selecting value hv hi => exact .inr ⟨value, hi, hv, by simp⟩
  | quiet | aborting | inserting | sealing | clearing | delivering => exact .inl rfl

/-- Settles O17: of all effects only CFG_WRITE's touches EXT_EN. -/
theorem onlyCfgWriteChangesTheFormat : Obligations.OnlyCfgWriteChangesTheFormat := by
  intro i s t h hne
  obtain ⟨r, s', he, rfl⟩ := exec_effect h
  exact he.extEn_eq_or_cfgWrite.resolve_left hne

theorem Effect.dlog_eq_or_envDecode (he : Effect i s r s') :
    s'.dlog = s.dlog ∨ ∃ len frame d, i = .envDecode len frame ∧ s'.dlog = s.dlog ++ [d] := by
  cases he with
  | delivering bytes p st port hi => exact .inr ⟨_, _, _, hi, rfl⟩
  | quiet | selecting | aborting | inserting | sealing | clearing => exact .inl rfl

/-- Settles O20: of all effects only ENV_DECODE's delivery touches the log. -/
theorem deliveryLogIsAppendOnly : Obligations.DeliveryLogIsAppendOnly := by
  intro i s t h
  obtain ⟨r, s', he, rfl⟩ := exec_effect h
  exact he.dlog_eq_or_envDecode

/-! ### Registered entries (R25 (d)) -/

/-- Every effect but REG_CLEAR's leaves the entries below REG_COUNT: an insertion goes above them. -/
theorem Effect.entryAt_eq (he : Effect i s r s') (hclear : i ≠ .regClear) {n : Nat} (hn : n < s.regCount) :
    entryAt n s' = entryAt n s ∧ n < s'.regCount := by
  cases he with
  | inserting => exact ⟨entryAt_insertEntry_ne hn.ne, Nat.lt_succ_of_lt hn⟩
  | clearing hi => exact absurd hi hclear
  | quiet | selecting | aborting | sealing | delivering => exact ⟨rfl, hn⟩

/-- Settles O21, by the three ways a step answers and the effects of the request. -/
theorem validEntriesStayUntilCleared : Obligations.ValidEntriesStayUntilCleared := by
  intro s t n _ hstep hn
  rcases step_cases hstep with ⟨-, rfl⟩ | ⟨rest, hport, -⟩ | ⟨w, rest, i, hport, hdecode, hx⟩
  · exact .inl ⟨rfl, hn⟩
  · exact .inr (.inl ⟨rest, hport⟩)
  · by_cases hclear : i = .regClear
    · exact .inr (.inr ⟨w, rest, hport, hclear ▸ hdecode⟩)
    · obtain ⟨r, s', he, rfl⟩ := exec_effect hx
      exact .inl (he.entryAt_eq hclear hn)

/-! ### Reading the registers (R21, R22) -/

/-- REG_STATUS is the count above two bits of state code. -/
theorem regStatus_eq (s : State) :
    (s.regCount <<< 2) ||| s.regState.code.toNat = 4 * s.regCount + s.regState.code.toNat := by
  rw [← Nat.shiftLeft_add_eq_or_of_lt s.regState.code.isLt, Nat.shiftLeft_eq, Nat.mul_comm]

theorem exec_cfgRead_ctrl (s : State) : CompletesWith (.cfgRead 0) s { value := s.extEn.toNat } := rfl

theorem exec_cfgRead_regStatus (s : State) :
    CompletesWith (.cfgRead 1) s { value := 4 * s.regCount + s.regState.code.toNat } := by
  rw [← regStatus_eq]; rfl

/-- Code 3 is no state's (R23). -/
theorem RegState.code_lt_three (st : RegState) : st.code.toNat < 3 := by cases st <;> decide

/-- In the invariant the count leaves two bits of the lane free for the state (R7, R22). -/
theorem State.Inv.regCount_lt (h : s.Inv) : s.regCount < 2 ^ (valW - 2) := by
  have hcfg := h.config
  simp only [configWellFormed, Bool.and_eq_true, decide_eq_true_eq] at hcfg
  have hcount := h.count
  omega

/-- Settles O27: the count is below 2 ^ 14 and the code below 3. -/
theorem regStatusFitsItsRegister : Obligations.RegStatusFitsItsRegister := by
  intro s h
  have hcode := s.regState.code_lt_three
  have hcount : s.regCount < 2 ^ 14 := h.regCount_lt
  have hlane : 4 * s.regCount + s.regState.code.toNat < 2 ^ 16 := by omega
  exact ⟨_, exec_cfgRead_regStatus s, hlane, by omega, by omega, by omega⟩

/-! ### Steps (R18, R29) -/

/-- Settles O7, by the branch of `step` for a word that decodes. -/
theorem stepRunsTheDecodedInstruction : Obligations.StepRunsTheDecodedInstruction := by
  intro s w rest i hport hdecode
  simp only [step, hport, hdecode]

/-- Settles O8, by the branches of `step` for an empty port and for a word that does not decode. -/
theorem stepWithoutARequest : Obligations.StepWithoutARequest := by
  refine ⟨fun s hport => ?_, fun s w rest e hport hdecode => ?_⟩
  · simp only [step, hport]
  · simp only [step, hport, hdecode]

/-! ### Power-on (R28, R124) -/

/-- A lookup in range of an id that is not registered, outside ABORTED. -/
theorem exec_regLookup_of_not_registered {id : Nat} (hid : id < 2 ^ 16) (hst : s.regState ≠ .aborted)
    (hn : ¬ s.Registered (BitVec.ofNat 16 id)) :
    CompletesWith (.regLookup id) s { status := .unknownFrameId, info := .operand .id } := by
  have hfind := find_eq_none_iff.2 hn
  show execRegLookup id s = _
  rw [execRegLookup, if_neg (by omega)]
  split
  · exact absurd ‹_› hst
  · rw [hfind]; rfl

/-- Settles O11: the registry of the power-on state is empty. -/
theorem stateJustAfterPowerOn : Obligations.StateJustAfterPowerOn := by
  intro c
  have hempty (id : FrameId) : ¬ (State.powerOn c).Registered id := not_registered_of_count_zero rfl id
  refine ⟨rfl, rfl, rfl, rfl, rfl, by simp, fun e he => List.eq_of_mem_replicate he, fun id hid => ?_, fun id => ?_,
    exec_cfgRead_ctrl _, exec_cfgRead_regStatus _⟩
  · exact exec_regLookup_of_not_registered hid (by simp) (hempty _)
  · exact dispatch_of_not_registered (by simp) (hempty id)

end Sys2Proof.Machine
end

section
/-! What a request writes and what the next one sees of it (20_memory.md R41, R43), read off the effects of
Sys2Proof/Laws/Step.lean. -/

namespace Sys2Proof.Machine

variable {i : Instr} {s t s' : State} {r : Result}

/-! ### Requests that write nothing (R41) -/

/-- The block state is written by CFG_WRITE, REG_REGISTER, REG_SEAL and REG_CLEAR alone. -/
theorem Effect.block_eq_of_reader (he : Effect i s r s') (hwrite : ∀ reg value, i ≠ .cfgWrite reg value)
    (hregister : ∀ id sel name, i ≠ .regRegister id sel name) (hseal : i ≠ .regSeal) (hclear : i ≠ .regClear) :
    s'.block = s.block := by
  cases he with
  | quiet | delivering => rfl
  | selecting value _ hi => exact absurd hi (hwrite 0 value)
  | aborting id sel name hi | inserting id sel name hi => exact absurd hi (hregister id sel name)
  | sealing hi => exact absurd hi hseal
  | clearing hi => exact absurd hi hclear

/-- Settles O18: the effects that write the block state are those of the four writing requests, and the log
is ENV_DECODE's. -/
theorem readersWriteNoState : Obligations.ReadersWriteNoState := by
  intro i s t h hwrite hregister hseal hclear
  obtain ⟨r, s', he, rfl⟩ := exec_effect h
  refine ⟨he.block_eq_of_reader hwrite hregister hseal hclear, fun hdecode => ?_⟩
  rcases he.dlog_eq_or_envDecode with hlog | ⟨len, frame, -, hi, -⟩
  · exact hlog
  · exact absurd hi (hdecode len frame)

/-! ### The format that CFG_WRITE leaves (R43 (a)) -/

theorem exec_cfgWrite_ctrl {value : Nat} (hv : value < 2) :
    exec (.cfgWrite 0 value) s = finish {} { s with extEn := value == 1 } := by
  show execCfgWrite 0 value s = _
  rw [execCfgWrite, if_neg (by decide), if_pos rfl, if_neg (by omega)]

/-- A read of CTRL gives back the bit that was written. -/
theorem toNat_beq_one {value : Nat} (hv : value < 2) : (value == 1).toNat = value := by
  interval_cases value <;> rfl

/-! ### The entry that REG_REGISTER leaves (R43 (b)) -/

/-- A lookup in range of an id that is found, outside ABORTED. -/
theorem exec_regLookup_of_find {id n : Nat} (hid : id < 2 ^ 16) (hst : s.regState ≠ .aborted)
    (hfind : find (BitVec.ofNat 16 id) s = some n) :
    CompletesWith (.regLookup id) s { sel := (entryAt n s).sel, name := (entryAt n s).name, index := n } := by
  show execRegLookup id s = _
  rw [execRegLookup, if_neg (by omega)]
  split
  · exact absurd ‹_› hst
  · rw [hfind]; rfl

/-- A registration that answers OK puts its entry at the index it answers, where a search finds it. -/
theorem Effect.find_of_registered {id sel name : Nat} (he : Effect (.regRegister id sel name) s r s') (h : s.Inv)
    (hok : r.status = .ok) :
    id < 2 ^ 16 ∧ s'.regState ≠ .aborted ∧ find (BitVec.ofNat 16 id) s' = some r.index ∧
      entryAt r.index s' = { valid := true, id := BitVec.ofNat 16 id, sel := sel, name := name } := by
  have hinv : s'.Inv := he.keeps_inv h
  cases he with
  | quiet _ _ _ _ _ _ herror => exact absurd hok (herror _ _ _ rfl).1
  | aborting => cases hok
  | inserting _ _ _ hi hst hid _ _ _ hfull =>
    cases hi
    have hlt : s.regCount < s.entries.length := h.table ▸ h.count.lt_of_ne hfull
    have hentry := entryAt_insertEntry_self
      (e := { valid := true, id := BitVec.ofNat 16 id, sel := sel, name := name }) hlt
    exact ⟨hid, by simp [hst], hinv.find_eq_some_iff.2 ⟨Nat.lt_succ_self _, by simp [hentry]⟩, hentry⟩
  | selecting _ _ hi | sealing hi | clearing hi | delivering _ _ _ _ hi => cases hi

/-! ### Deliveries in the order of their requests (R43 (d)) -/

/-- A parsed frame that routes to a port is delivered there, and the request leaves the format, the
parameters and the registry that the next one reads. -/
theorem exec_envDecode_of_routed {frame : List Byte} {p : DeliveryRecord} {st : Status} {k : OutPort}
    (hlen : frame.length ≤ s.cfg.maxFrame) (hp : parseEnvelope frame frame.length s.extEn = some p)
    (hd : dispatch p.id s = (st, some k)) :
    ∃ t, exec (.envDecode frame.length (some frame)) s = .next t ∧ t.block = s.block ∧ t.cfg = s.cfg ∧
      t.dlog = s.dlog ++ [{ port := k, record := p }] := by
  refine ⟨_, execEnvDecode_of_parsed hlen hp, ?_⟩
  rw [hd]
  exact ⟨rfl, rfl, rfl⟩

/-- Settles O24: each request's effect, and then what the next request reads of it. -/
theorem writesAreSeenByTheNextRequest : Obligations.WritesAreSeenByTheNextRequest := by
  refine ⟨fun s t value hv hx => ?_, fun s t id sel name n hinv hx hres => ?_, fun s t id hid hx => ?_,
    fun s frame frame' p p' st st' k k' hlen hlen' hp hd hp' hd' => ?_⟩
  · rw [exec_cfgWrite_ctrl hv] at hx
    cases hx
    refine ⟨rfl, ?_⟩
    have hread := exec_cfgRead_ctrl (complete {} { s with extEn := value == 1 })
    rwa [complete_extEn, toNat_beq_one hv] at hread
  · obtain ⟨s', he, rfl⟩ := exec_effect_of_results hx hres
    obtain ⟨hid, hst, hfind, hentry⟩ := he.find_of_registered hinv rfl
    have hlookup := exec_regLookup_of_find (s := complete { index := n } s') hid hst hfind
    have hdispatch := dispatch_of_find hst hfind
    rw [entryAt_complete, hentry] at hlookup
    rw [hentry] at hdispatch
    exact ⟨hlookup, hdispatch⟩
  · obtain ⟨r, s', he, rfl⟩ := exec_effect hx
    obtain ⟨hst, hcount, -⟩ := he.empty_of_clear
    exact exec_regLookup_of_not_registered hid (by simp [hst]) (not_registered_of_count_zero hcount _)
  · obtain ⟨t, hx, hblock, hcfg, hlog⟩ := exec_envDecode_of_routed hlen hp hd
    have hext : t.extEn = s.extEn := congrArg BlockState.extEn hblock
    obtain ⟨u, hx', -, -, hlog'⟩ := exec_envDecode_of_routed (s := t) (hcfg ▸ hlen') (hext ▸ hp')
      ((dispatch_of_block_eq hblock p'.id).trans hd')
    exact ⟨t, u, hx, hx', by rw [hlog', hlog, List.append_assoc]; rfl⟩

end Sys2Proof.Machine
end

section
/-! The words of the port (30_encoding.md R49 to R61): the decoder reads back the word of every well-formed
instruction, a record that decodes begins with the op code of what it asks for, and a control byte is made of
the fields it is read as. -/

namespace Sys2Proof

open Laws.OpCode (Begins)

/-! ### Records are read back (R60; log entries 3, 4) -/

@[simp] theorem except_ok_bind {ε α β : Type} (a : α) (f : α → Except ε β) : (Except.ok a >>= f) = f a := rfl

theorem takeEnvelopeOperands_lanesBytes {o : EnvelopeOperands} (h : o.fit = true) (rest : List Byte) :
    takeEnvelopeOperands (lanesBytes o.lanes ++ rest) = .ok (o, rest) := by
  have hfit : ∀ x ∈ o.lanes, laneFits x = true := List.all_eq_true.1 h
  simp only [EnvelopeOperands.lanes, List.forall_mem_cons] at hfit
  simp [takeEnvelopeOperands, EnvelopeOperands.lanes, takeLane_laneBytes, hfit]

theorem opIsUndefined_iff {op : Byte} : opIsUndefined op = true ↔ op = 0 ∨ 0x10 ≤ op.toNat := by
  simp [opIsUndefined, ← BitVec.toNat_inj]

/-- R61: whatever follows an undefined op code, it is read as the undefined operation of that code. -/
theorem decodeRequest_of_opIsUndefined {op : Byte} (h : opIsUndefined op = true) (bytes : List Byte) :
    decodeRequest (op :: bytes) = .ok (.illegal op) := by
  simp only [opIsUndefined, Bool.or_eq_true, beq_iff_eq, decide_eq_true_eq] at h
  simp only [decodeRequest]
  split
  case h_16 => rfl
  all_goals omega

/-- Settles O2, one row of the opcode table at a time: a control byte has the fields it was built from, and a
record's operands are read back in the order in which they were written. -/
theorem decodeOfEncodeIsTheInstruction : Obligations.DecodeOfEncodeIsTheInstruction := by
  intro i h
  cases i <;> simp only [Instr.wf, Bool.and_eq_true] at h
  case wLcmd => simp [encode, decode, decodeLegacyByte, decodeLegacy_lcmdByte]
  case wLrsp => simp [encode, decode, decodeLegacyByte, decodeLegacy_lrspByte]
  case wExt => simp [encode, decode, decodeExtByte, decodeExt_extByteOf]
  case illegal => exact decodeRequest_of_opIsUndefined h []
  case regSeal | regClear => rfl
  case bfPack =>
    simp [encode, decode, decodeRequest, takeLane_laneBytes, takeValues_bytes_end, h]
  case envEncode =>
    simp [encode, decode, decodeRequest, takeEnvelopeOperands_lanesBytes, takeBuffer_bufferBytes_end, h]
  case envDecode =>
    simp [encode, decode, decodeRequest, takeLane_laneBytes, takeBuffer_bufferBytes_end, h]
  all_goals simp [encode, decode, decodeRequest, takeLane_laneBytes, takeLane_laneBytes_end, h]

/-! ### Op codes (R60, R61) -/

/-- A reader that answers has read its first part, and the rest of it answers. -/
theorem exists_of_bind_eq_ok {ε α β : Type} {x : Except ε α} {f : α → Except ε β} {b : β}
    (h : (x >>= f) = .ok b) : ∃ a, x = .ok a ∧ f a = .ok b := by
  cases x with
  | error e => cases h
  | ok a => exact ⟨a, rfl, h⟩

theorem eq_ofNat_of_toNat_eq {op : Byte} {n : Nat} (h : op.toNat = n) : op = BitVec.ofNat 8 n := by
  rw [← h, BitVec.ofNat_toNat, BitVec.setWidth_eq]

/-- What a record that decodes asks for: an instruction whose word begins with the record's op code, and
the undefined operation only of an undefined op code. -/
theorem begins_of_decodeRequest {op : Byte} {bytes : List Byte} {i : Instr}
    (h : decodeRequest (op :: bytes) = .ok i) :
    Begins i op ∧ (i = .illegal op → opIsUndefined op = true) := by
  simp only [decodeRequest] at h
  split at h
  case h_16 =>
    cases h
    exact ⟨⟨_, rfl⟩, fun _ => by grind [opIsUndefined]⟩
  all_goals
    next hop =>
      cases eq_ofNat_of_toNat_eq hop
      repeat obtain ⟨⟨_, _⟩, -, h⟩ := exists_of_bind_eq_ok h
      cases h
      exact ⟨⟨_, rfl⟩, nofun⟩

/-- Settles O3: the record's op code is the one the word of the decoded instruction begins with. -/
theorem operationCodes : Obligations.OperationCodes := by
  intro op bytes i h
  obtain ⟨⟨word, hword⟩, hundef⟩ := begins_of_decodeRequest h
  rw [opIsUndefined_iff] at hundef
  cases i <;> simp only [encode, reduceCtorEq, PortWord.request.injEq, List.cons.injEq] at hword
  case illegal =>
    obtain ⟨rfl, -⟩ := hword
    have hop := hundef rfl
    simp [← BitVec.toNat_inj] at hop ⊢
    omega
  all_goals
    obtain ⟨rfl, -⟩ := hword
    simp

/-- Settles O1: each word is the one the encoder gives for the instruction beside it. -/
theorem wordsOfTheSpecDecode : Obligations.WordsOfTheSpecDecode :=
  ⟨decodeOfEncodeIsTheInstruction (.wLcmd 2 .none false .idle) rfl,
    decodeOfEncodeIsTheInstruction (.wLrsp 1 .asynchronous true false true) rfl,
    decodeOfEncodeIsTheInstruction (.wLrsp 3 .reserved true true true) rfl,
    decodeOfEncodeIsTheInstruction (.wExt true false 0 .version1) rfl,
    decodeOfEncodeIsTheInstruction .regSeal rfl,
    decodeOfEncodeIsTheInstruction .regClear rfl,
    decodeOfEncodeIsTheInstruction (.fcDec 0xFF) rfl,
    decodeOfEncodeIsTheInstruction (.regLookup 0x1234) rfl⟩

/-! ### Control bytes are made of their fields (R49 to R53, R89 (d), (e)) -/

theorem ofBool_getLsbD (b : Byte) (k : Nat) : BitVec.ofBool (b.getLsbD k) = b.field k 1 := by
  ext i hi
  obtain rfl : i = 0 := by omega
  simp

/-- Two fields of a byte, one directly above the other, are one field. -/
theorem field_append {b : Byte} {lo w lo' w' : Nat} (h : lo' = lo + w) :
    b.field lo' w' ++ b.field lo w = b.field lo (w' + w) :=
  BitVec.extractLsb'_append_extractLsb'_eq_extractLsb' h

theorem field_all (b : Byte) : b.field 0 8 = b := BitVec.extractLsb'_eq_self

theorem field_zero_one (b : Byte) : b.field 0 1 = BitVec.ofNat 1 b.toNat := rfl

/-- A byte with bit 0 clear is the command byte of its fields (R49). -/
theorem lcmdByte_fields {b : Byte} (h : b.field 0 1 = 0) :
    lcmdByte (b.field 1 2) (.ofCode (b.field 3 2)) (b.getLsbD 5) (.ofCode (b.field 6 2)) = b := by
  simp only [lcmdByte, SleepMode.code_ofCode, CallbackType.code_ofCode, ofBool_getLsbD]
  rw [show 0#1 = b.field 0 1 from h.symm]
  simp only [field_append]
  exact field_all b

/-- A byte with bit 0 set is the response byte of its fields (R50). -/
theorem lrspByte_fields {b : Byte} (h : b.field 0 1 = 1) :
    lrspByte (b.field 1 2) (.ofCode (b.field 3 2)) (b.getLsbD 5) (b.getLsbD 6) (b.getLsbD 7) = b := by
  simp only [lrspByte, CallbackType.code_ofCode, ofBool_getLsbD]
  rw [show 1#1 = b.field 0 1 from h.symm]
  simp only [field_append]
  exact field_all b

/-- Every byte is the extended byte of its fields (R51). -/
theorem extByteOf_fields (x : Byte) :
    extByteOf (x.getLsbD 0) (x.getLsbD 1) (x.field 2 4) (.ofCode (x.field 6 2)) = x := by
  simp only [extByteOf, FrameFormatVersion.code_ofCode, ofBool_getLsbD, field_append]
  exact field_all x

theorem decodeLegacyByte_of_command {b : Byte} (h : b.field 0 1 = 0) :
    decodeLegacyByte b = .wLcmd (b.field 1 2) (.ofCode (b.field 3 2)) (b.getLsbD 5) (.ofCode (b.field 6 2)) := by
  simp only [decodeLegacyByte, decodeLegacy, if_pos h]

theorem decodeLegacyByte_of_response {b : Byte} (h : b.field 0 1 = 1) :
    decodeLegacyByte b =
      .wLrsp (b.field 1 2) (.ofCode (b.field 3 2)) (b.getLsbD 5) (b.getLsbD 6) (b.getLsbD 7) := by
  have hne : b.field 0 1 ≠ 0 := by rw [h]; decide
  simp only [decodeLegacyByte, decodeLegacy, if_neg hne]

theorem encode_decodeLegacyByte (b : Byte) : encode (decodeLegacyByte b) = .legacyByte b := by
  rcases BitVec.eq_zero_or_eq_one (b.field 0 1) with h | h
  · rw [decodeLegacyByte_of_command h, encode, lcmdByte_fields h]
  · rw [decodeLegacyByte_of_response h, encode, lrspByte_fields h]

theorem encode_decodeExtByte (x : Byte) : encode (decodeExtByte x) = .extByte x :=
  congrArg PortWord.extByte (extByteOf_fields x)

/-- Settles O5: a legacy byte's bit 0 is the lowest bit of its number, and either view's byte is made of the
fields that are read. -/
theorem everyControlByteIsTheWordOfItsReading : Obligations.EveryControlByteIsTheWordOfItsReading := by
  refine ⟨fun b => ⟨_, rfl, encode_decodeLegacyByte b, fun h => ?_, fun h => ?_⟩,
    fun x => ⟨_, rfl, encode_decodeExtByte x⟩⟩
  · have hbit : b.field 0 1 = 0 := by simp [field_zero_one, ← BitVec.toNat_inj, h]
    exact ⟨_, _, _, _, decodeLegacyByte_of_command hbit⟩
  · have hbit : b.field 0 1 = 1 := by simp [field_zero_one, ← BitVec.toNat_inj, h]
    exact ⟨_, _, _, _, _, decodeLegacyByte_of_response hbit⟩

/-! ### The 16-bit control word (R54) -/

/-- Two bytes of a buffer at offset 1, read little-endian, are the control word with the second of them high. -/
theorem memRead_two_eq_controlWord (sq legacy ext : Byte) (rest : List Byte) :
    Machine.memRead (sq :: legacy :: ext :: rest) 1 2 = (controlWord ext legacy).toNat := by
  have hlegacy := legacy.isLt
  have hext := ext.isLt
  rw [controlWord, ← Machine.ofNat_two_bytes, BitVec.toNat_ofNat, Machine.memRead_two]
  exact (Nat.mod_eq_of_lt (by omega)).symm

/-- Settles O6, by the parts of the appended bytes. -/
theorem controlWordLayout : Obligations.ControlWordLayout := fun ext legacy sq rest =>
  ⟨BitVec.extractLsb'_append_eq_right, BitVec.extractLsb'_append_eq_left,
    controlWord_getLsbD ext legacy 8, controlWord_getLsbD ext legacy 9,
    BitVec.extractLsb'_append_eq_of_le (by decide),
    (BitVec.extractLsb'_append_eq_of_le (by decide)).trans (FrameFormatVersion.code_ofCode _).symm,
    memRead_two_eq_controlWord sq legacy ext rest⟩

end Sys2Proof

namespace Sys2Proof.Machine

/-! ### A control byte presented by itself (log entry 10) -/

theorem execFcDec_toNat (b : Byte) (s : State) : execFcDec b.toNat s = readLegacyByte b s := by
  simp [execFcDec, b.isLt]

theorem execFcDecExt_toNat (x : Byte) (s : State) : execFcDecExt x.toNat s = readExtByte x s := by
  simp [execFcDecExt, x.isLt]

/-- Settles O42: a wire row is read as its byte, whose fields are those it was built from, and so is the
operand of FC_DEC or FC_DEC_EXT. -/
theorem wireBytesCompleteAsTheirDecoding : Obligations.WireBytesCompleteAsTheirDecoding := by
  refine ⟨fun s ni ct cp sm => ⟨?_, (execFcDec_toNat _ s).symm⟩,
    fun s ni ct cp tr ov => ⟨?_, (execFcDec_toNat _ s).symm⟩,
    fun s se pe rs ver => ⟨?_, (execFcDecExt_toNat _ s).symm⟩⟩
  · rw [← decodeLegacy_lcmdByte]; rfl
  · rw [← decodeLegacy_lrspByte]; rfl
  · rw [← decodeExt_extByteOf]; rfl

end Sys2Proof.Machine
end

section
/-! The BitField codec (40_bitfield.md R66 to R75): what makes a descriptor set well-formed, `pack` and
`unpack` as inverse bijections, and BF_PACK and BF_UNPACK case by case. -/

namespace Sys2Proof.Machine

variable {s : State} {d : DescSet} {dset c : Nat} {v : List Nat}

/-! ### pack and unpack (R70 to R72) -/

/-- The values that fit a set's fields are the in-range lists of R70 and R72. -/
theorem fit_fields_iff :
    Fit d.fields v ↔ v.length = fieldCount d ∧ ∀ i < fieldCount d, v.getD i 0 < 2 ^ fieldWidth d i := by
  refine ⟨fun h => ?_, fun ⟨hlen, h⟩ => (fit_iff_getD hlen).2 h⟩
  have hlen : v.length = fieldCount d := h.length_eq.symm
  exact ⟨hlen, (fit_iff_getD hlen).1 h⟩

theorem unpack_fit (d : DescSet) (c : Nat) : Fit d.fields (unpack d c) := by
  rw [unpack_eq]
  exact unpackValue_fit d.fields c

/-- R72 (a), for any set: what was packed is unpacked. -/
theorem unpack_of_pack (hfit : Fit d.fields v) (hpack : pack d v = .ok c) : unpack d c = v := by
  rw [pack_of_fit hfit] at hpack
  cases hpack
  rw [unpack_eq, unpackValue_packValue hfit]

/-- R72 (a): in a well-formed set the container of in-range values has N bits. -/
theorem exists_pack_of_fit (hd : descSetWellFormed d = true) (hfit : Fit d.fields v) :
    ∃ c, pack d v = .ok c ∧ c < 2 ^ d.bits := by
  have hlt := packValue_lt hfit
  rw [widthSum_of_wellFormed hd] at hlt
  exact ⟨_, pack_of_fit hfit, hlt⟩

/-- R72 (b): the fields of a container are packed to it. -/
theorem pack_unpack (hd : descSetWellFormed d = true) (hc : c < 2 ^ d.bits) : pack d (unpack d c) = .ok c := by
  rw [← widthSum_of_wellFormed hd] at hc
  rw [pack_of_fit (unpack_fit d c), unpack_eq, packValue_unpackValue d.fields hc]

/-- Settles O31: the one list that is packed to a container is what the container unpacks to. -/
theorem packAndUnpackAreInverse : Obligations.PackAndUnpackAreInverse := by
  refine fun d hd => ⟨fun v hlen hrange => ?_, fun c hc => pack_unpack hd hc, fun c hc => ⟨unpack d c, ?_, ?_⟩⟩
  · have hfit : Fit d.fields v := fit_fields_iff.2 ⟨hlen, hrange⟩
    obtain ⟨c, hpack, hc⟩ := exists_pack_of_fit hd hfit
    exact ⟨c, hpack, hc, unpack_of_pack hfit hpack⟩
  · obtain ⟨hlen, hrange⟩ := fit_fields_iff.1 (unpack_fit d c)
    exact ⟨hlen, hrange, pack_unpack hd hc⟩
  · rintro v ⟨hlen, hrange, hpack⟩
    exact (unpack_of_pack (fit_fields_iff.2 ⟨hlen, hrange⟩) hpack).symm

/-! ### Well-formed sets (R68) -/

/-- R68 (d): distinct codes below their number are each code once, by counting. -/
theorem each_code_once_iff {codes : List Nat} {m : Nat} (hlen : codes.length = m) :
    ((∀ x ∈ codes, x < m) ∧ codes.Nodup) ↔ ∀ x < m, ∃! n : Nat, codes[n]? = some x := by
  constructor
  · rintro ⟨hlt, hnodup⟩ x hx
    have hsub : codes.Subperm (List.range m) :=
      List.subperm_of_subset hnodup fun y hy => List.mem_range.2 (hlt y hy)
    have hperm : codes.Perm (List.range m) := hsub.perm_of_length_le (by simp [hlen])
    obtain ⟨n, hn⟩ := List.mem_iff_getElem?.1 (hperm.mem_iff.2 (List.mem_range.2 hx))
    have hbound : n < codes.length := (List.getElem?_eq_some_iff.1 hn).1
    exact ⟨n, hn, fun k hk => ((List.getElem?_inj hbound hnodup).1 (hn.trans hk.symm)).symm⟩
  · intro h
    have hsub : (List.range m).Subperm codes :=
      List.subperm_of_subset List.nodup_range fun x hx => by
        obtain ⟨n, hn, -⟩ := h x (List.mem_range.1 hx)
        exact List.mem_of_getElem? hn
    have hperm : (List.range m).Perm codes := hsub.perm_of_length_le (by simp [hlen])
    exact ⟨fun x hx => List.mem_range.1 (hperm.mem_iff.2 hx), hperm.nodup List.nodup_range⟩

/-- An enumeration field meets R68 (a), (d) and (e). -/
theorem fieldWellFormed_enum {name : String} {w : Nat} {vs : List (String × Nat)} :
    fieldWellFormed { name := name, width := w, enc := .enum vs } = true ↔
      1 ≤ w ∧ (vs.length = 2 ^ w ∧ ∀ code < 2 ^ w, ∃! n : Nat, (vs.map (·.2))[n]? = some code) ∧
        (vs.map (·.1)).Nodup := by
  have honce (hlen : vs.length = 2 ^ w) := each_code_once_iff (codes := vs.map (·.2)) (by simpa using hlen)
  simp only [List.forall_mem_map] at honce
  simp only [fieldWellFormed, Bool.and_eq_true, decide_eq_true_eq, beq_iff_eq, List.all_eq_true]
  constructor
  · rintro ⟨hw, ⟨⟨hlen, hlt⟩, hcodes⟩, hnames⟩
    exact ⟨hw, ⟨hlen, (honce hlen).1 ⟨hlt, hcodes⟩⟩, hnames⟩
  · rintro ⟨hw, ⟨hlen, hone⟩, hnames⟩
    obtain ⟨hlt, hcodes⟩ := (honce hlen).2 hone
    exact ⟨hw, ⟨⟨hlen, hlt⟩, hcodes⟩, hnames⟩

/-- A field's own conditions: R68 (a) for its width, (c), (d), and (e) for its variant names. -/
theorem fieldWellFormed_iff {f : FieldDesc} :
    fieldWellFormed f = true ↔
      1 ≤ f.width ∧ (f.enc = .bool → f.width = 1) ∧
      (∀ vs, f.enc = .enum vs → vs.length = 2 ^ f.width ∧
        ∀ code < 2 ^ f.width, ∃! n : Nat, (vs.map (·.2))[n]? = some code) ∧
      (∀ vs, f.enc = .enum vs → (vs.map (·.1)).Nodup) := by
  obtain ⟨name, w, enc⟩ := f
  cases enc with
  | bool | uint => simp [fieldWellFormed]
  | enum vs => simp [fieldWellFormed_enum]

theorem descSetWellFormed_iff :
    descSetWellFormed d = true ↔
      1 ≤ d.fields.length ∧ (∀ f ∈ d.fields, fieldWellFormed f = true) ∧ widthSum d.fields = d.bits ∧
        (d.fields.map (·.name)).Nodup ∧ d.bits ≤ 16 := by
  simp only [descSetWellFormed, Bool.and_eq_true, decide_eq_true_eq, beq_iff_eq, List.all_eq_true, and_assoc]

/-- I4: with well-formed parameters every set that a request can name is well-formed. -/
theorem descSets_wellFormed {cfg : Config} (hcfg : configWellFormed cfg = true) :
    ∀ d ∈ descSets cfg, descSetWellFormed d = true := by
  simp only [configWellFormed, Bool.and_eq_true, List.all_eq_true] at hcfg
  obtain ⟨-, hextra⟩ := hcfg
  simp only [descSets, List.forall_mem_append, List.forall_mem_cons]
  exact ⟨⟨lcmdSet_wellFormed, lrspSet_wellFormed, extSet_wellFormed, by simp⟩, hextra⟩

/-- Settles O30: R68 (a) to (f) gathers the conditions on the set and those on each of its fields. -/
theorem descriptorSetsAreWellFormed : Obligations.DescriptorSetsAreWellFormed := by
  refine ⟨fun d => ?_, ?_, fun _ => descSets_wellFormed⟩
  · simp only [descSetWellFormed_iff, fieldWellFormed_iff, forall_and]
    constructor
    · rintro ⟨hcount, ⟨hwidth, hbool, henum, hvariants⟩, hsum, hnames, hbits⟩
      exact ⟨⟨hcount, hwidth⟩, hsum, hbool, henum, ⟨hnames, hvariants⟩, hbits⟩
    · rintro ⟨⟨hcount, hwidth⟩, hsum, hbool, henum, ⟨hnames, hvariants⟩, hbits⟩
      exact ⟨hcount, ⟨hwidth, hbool, henum, hvariants⟩, hsum, hnames, hbits⟩
  · simp only [List.forall_mem_cons]
    exact ⟨⟨lcmdSet_wellFormed, rfl⟩, ⟨lrspSet_wellFormed, rfl⟩, ⟨extSet_wellFormed, rfl⟩, by simp⟩

/-! ### BF_PACK (R70, R74) -/

/-- R70: the lowest value that does not fit its field is reported. -/
theorem pack_of_lowest_bad {i : Nat} {f : FieldDesc} (hlen : v.length = fieldCount d) (hf : d.fields[i]? = some f)
    (hlow : ∀ j < i, v.getD j 0 < 2 ^ fieldWidth d j) (hbad : 2 ^ f.width ≤ v.getD i 0) :
    pack d v = .error (overflowStatus f.enc, i) := by
  rw [pack, firstBadField_eq_some hf hlen hlow hbad, Nat.zero_add]

/-- The container of in-range values is the sum of the values, each at its field's offset. -/
theorem pack_eq_sum (hfit : Fit d.fields v) :
    pack d v = .ok (∑ i ∈ Finset.range (fieldCount d), v.getD i 0 * 2 ^ fieldOffset d i) := by
  rw [pack_of_fit hfit, packValue_eq_sum hfit.length_eq.symm]
  rfl

theorem exec_bfPack_of_wide_dset (h : 2 ^ 8 ≤ dset) :
    CompletesWith (.bfPack dset v) s { status := .fieldOverflow, info := .operand .dset } := by
  show execBfPack dset v s = _
  rw [execBfPack, if_pos h]; rfl

theorem exec_bfPack_of_no_set (h : dset < 2 ^ 8) (hset : (descSets s.cfg).length ≤ dset) :
    CompletesWith (.bfPack dset v) s { status := .illegalOperation, info := .operand .dset } := by
  show execBfPack dset v s = _
  rw [execBfPack, if_neg h.not_ge, List.getElem?_eq_none hset]; rfl

theorem exec_bfPack_of_wrong_count (h : dset < 2 ^ 8) (hset : (descSets s.cfg)[dset]? = some d)
    (hlen : v.length ≠ fieldCount d) :
    CompletesWith (.bfPack dset v) s { status := .illegalOperation, info := .operand .values } := by
  show execBfPack dset v s = _
  simp only [execBfPack, if_neg h.not_ge, hset, if_pos hlen]; rfl

theorem exec_bfPack_of_pack_ok (h : dset < 2 ^ 8) (hset : (descSets s.cfg)[dset]? = some d)
    (hlen : v.length = fieldCount d) (hpack : pack d v = .ok c) : CompletesWith (.bfPack dset v) s { c := c } := by
  show execBfPack dset v s = _
  simp only [execBfPack, if_neg h.not_ge, hset, if_neg (not_not_intro hlen), hpack]; rfl

theorem exec_bfPack_of_pack_error {st : Status} {i : Nat} (h : dset < 2 ^ 8)
    (hset : (descSets s.cfg)[dset]? = some d) (hlen : v.length = fieldCount d) (hpack : pack d v = .error (st, i)) :
    CompletesWith (.bfPack dset v) s { status := st, info := .field i } := by
  show execBfPack dset v s = _
  simp only [execBfPack, if_neg h.not_ge, hset, if_neg (not_not_intro hlen), hpack]; rfl

/-- Settles O32, one check of BF_PACK at a time and then the two outcomes of `pack`. -/
theorem bfPackEveryCase : Obligations.BfPackEveryCase := by
  refine fun s dset v => ⟨exec_bfPack_of_wide_dset, exec_bfPack_of_no_set, fun d hdset hset =>
    ⟨exec_bfPack_of_wrong_count hdset hset, fun hlen hrange => ?_, fun hlen i f hf hlow hbad => ?_⟩⟩
  · exact exec_bfPack_of_pack_ok hdset hset hlen (pack_eq_sum (fit_fields_iff.2 ⟨hlen, hrange⟩))
  · have hanswer := exec_bfPack_of_pack_error hdset hset hlen (pack_of_lowest_bad hlen hf hlow hbad)
    refine ⟨fun henc => ?_, fun vs henc => ?_⟩
    · rcases henc with henc | henc <;> rwa [henc] at hanswer
    · rwa [henc] at hanswer

/-! ### BF_UNPACK (R71, R75) -/

/-- R69, R71: lane `i` is the field's bits of the container. -/
theorem unpack_eq_map (d : DescSet) (c : Nat) :
    unpack d c = (List.range (fieldCount d)).map (fun i => c / 2 ^ fieldOffset d i % 2 ^ fieldWidth d i) :=
  (unpack_eq d c).trans (unpackValue_eq_map d.fields c)

theorem exec_bfUnpack_of_wide_dset (h : 2 ^ 8 ≤ dset) :
    CompletesWith (.bfUnpack dset c) s { status := .fieldOverflow, info := .operand .dset } := by
  show execBfUnpack dset c s = _
  rw [execBfUnpack, if_pos h]; rfl

theorem exec_bfUnpack_of_no_set (h : dset < 2 ^ 8) (hset : (descSets s.cfg).length ≤ dset) :
    CompletesWith (.bfUnpack dset c) s { status := .illegalOperation, info := .operand .dset } := by
  show execBfUnpack dset c s = _
  rw [execBfUnpack, if_neg h.not_ge, List.getElem?_eq_none hset]; rfl

theorem exec_bfUnpack_of_wide_container (h : dset < 2 ^ 8) (hset : (descSets s.cfg)[dset]? = some d)
    (hc : 2 ^ d.bits ≤ c) : CompletesWith (.bfUnpack dset c) s { status := .fieldOverflow, info := .operand .c } := by
  show execBfUnpack dset c s = _
  simp only [execBfUnpack, if_neg h.not_ge, hset, if_pos hc]; rfl

theorem exec_bfUnpack_of_container (h : dset < 2 ^ 8) (hset : (descSets s.cfg)[dset]? = some d)
    (hc : c < 2 ^ d.bits) : CompletesWith (.bfUnpack dset c) s { values := unpack d c } := by
  show execBfUnpack dset c s = _
  simp only [execBfUnpack, if_neg h.not_ge, hset, if_neg hc.not_ge]; rfl

/-- Settles O33, one check of BF_UNPACK at a time. -/
theorem bfUnpackEveryCase : Obligations.BfUnpackEveryCase := by
  refine fun s dset c => ⟨exec_bfUnpack_of_wide_dset, exec_bfUnpack_of_no_set, fun d hdset hset =>
    ⟨exec_bfUnpack_of_wide_container hdset hset, fun hc => ?_⟩⟩
  rw [← unpack_eq_map]
  exact exec_bfUnpack_of_container hdset hset hc

end Sys2Proof.Machine
end

section
/-! The frame-control header (spec 41_frame_control.md): the fields of a control byte as numbers, the
reserved-field flags, and the encoders and decoders case by case. -/

namespace Sys2Proof

/-! ### Fields as numbers (00_scope.md R8) -/

theorem toNat_append_eq_add {m n : Nat} (hi : BitVec m) (lo : BitVec n) :
    (hi ++ lo).toNat = 2 ^ n * hi.toNat + lo.toNat := by
  rw [BitVec.toNat_append, ← Nat.shiftLeft_add_eq_or_of_lt lo.isLt, Nat.shiftLeft_eq, Nat.mul_comm]

theorem toNat_ofNat_of_lt {w n : Nat} (h : n < 2 ^ w) : (BitVec.ofNat w n).toNat = n := by
  rw [BitVec.toNat_ofNat, Nat.mod_eq_of_lt h]

theorem toNat_field (b : Byte) (lo w : Nat) : (b.field lo w).toNat = b.toNat / 2 ^ lo % 2 ^ w := by
  rw [Byte.field, BitVec.extractLsb'_toNat, Nat.shiftRight_eq_div_pow]

theorem field_eq_iff {b : Byte} {lo w : Nat} {k : BitVec w} :
    b.field lo w = k ↔ b.toNat / 2 ^ lo % 2 ^ w = k.toNat := by
  rw [← BitVec.toNat_inj, toNat_field]

theorem getLsbD_eq_decide (b : Byte) (i : Nat) : b.getLsbD i = decide (b.toNat / 2 ^ i % 2 = 1) := by
  rw [← BitVec.testBit_toNat, Nat.testBit_eq_decide_div_mod_eq]

theorem toNat_getLsbD (b : Byte) (i : Nat) : (b.getLsbD i).toNat = b.toNat / 2 ^ i % 2 := by
  rw [← BitVec.testBit_toNat, Nat.toNat_testBit]

/-- The top field of a byte needs no upper bound. -/
theorem div_64_mod_4 (b : Byte) : b.toNat / 64 % 4 = b.toNat / 64 := by
  have := b.isLt
  omega

/-- R49: the command byte is the sum of its fields, each with the weight of its offset. -/
theorem toNat_lcmdByte (ni : BitVec 2) (ct : CallbackType) (cp : Bool) (sm : SleepMode) :
    (lcmdByte ni ct cp sm).toNat = 2 * ni.toNat + 8 * ct.code.toNat + 32 * cp.toNat + 64 * sm.code.toNat := by
  simp only [lcmdByte, toNat_append_eq_add, BitVec.toNat_ofBool, BitVec.toNat_ofNat]
  omega

/-- R50: the response byte likewise, with its indicator at bit 0. -/
theorem toNat_lrspByte (ni : BitVec 2) (ct : CallbackType) (cp tr ov : Bool) :
    (lrspByte ni ct cp tr ov).toNat =
      1 + 2 * ni.toNat + 8 * ct.code.toNat + 32 * cp.toNat + 64 * tr.toNat + 128 * ov.toNat := by
  simp only [lrspByte, toNat_append_eq_add, BitVec.toNat_ofBool, BitVec.toNat_ofNat]
  omega

/-- R51: the extended byte likewise. -/
theorem toNat_extByteOf (se pe : Bool) (rs : BitVec 4) (ver : FrameFormatVersion) :
    (extByteOf se pe rs ver).toNat = se.toNat + 2 * pe.toNat + 4 * rs.toNat + 64 * ver.code.toNat := by
  simp only [extByteOf, toNat_append_eq_add, BitVec.toNat_ofBool]
  omega

/-! ### The fields read from a legacy byte (R79) -/

@[simp] theorem decodeLegacy_networkIndex (b : Byte) : (decodeLegacy b).networkIndex = b.field 1 2 := by
  unfold decodeLegacy; split <;> rfl

@[simp] theorem decodeLegacy_callbackType (b : Byte) :
    (decodeLegacy b).callbackType = .ofCode (b.field 3 2) := by
  unfold decodeLegacy; split <;> rfl

@[simp] theorem decodeLegacy_callbackPending (b : Byte) : (decodeLegacy b).callbackPending = b.getLsbD 5 := by
  unfold decodeLegacy; split <;> rfl

theorem decodeLegacy_of_command {b : Byte} (h : b.field 0 1 = 0) :
    decodeLegacy b =
      { kind := .command, networkIndex := b.field 1 2, callbackType := .ofCode (b.field 3 2),
        callbackPending := b.getLsbD 5, sleepMode := .ofCode (b.field 6 2) } :=
  if_pos h

theorem decodeLegacy_of_response {b : Byte} (h : b.field 0 1 = 1) :
    decodeLegacy b =
      { kind := .response, networkIndex := b.field 1 2, callbackType := .ofCode (b.field 3 2),
        callbackPending := b.getLsbD 5, truncated := b.getLsbD 6, overflow := b.getLsbD 7 } :=
  if_neg (by rw [h]; decide)

end Sys2Proof

namespace Sys2Proof.Machine

variable {s : State}

/-! ### The reserved-field flags (R76 to R78) -/

/-- R76, bit 2 first. -/
theorem rsvLegacy_eq (b : Byte) :
    rsvLegacy b =
      BitVec.ofBool (decide (b.toNat % 2 = 0 ∧ b.toNat / 64 = 3)) ++
        BitVec.ofBool (decide (b.toNat % 2 = 0 ∧ b.toNat / 8 % 4 ≠ 0)) ++
        BitVec.ofBool (decide (b.toNat / 8 % 4 = 3)) := by
  simp [rsvLegacy, bne, beq_eq_decide, field_eq_iff, div_64_mod_4]

/-- R77, bit 1 first. -/
theorem rsvExt_eq (x : Byte) :
    rsvExt x =
      BitVec.ofBool (decide (2 ≤ x.toNat / 64)) ++ BitVec.ofBool (decide (x.toNat / 4 % 16 ≠ 0)) := by
  have hversion : (x.field 6 2).toNat = x.toNat / 64 := (toNat_field x 6 2).trans (div_64_mod_4 x)
  simp only [rsvExt, hversion]
  simp [bne, beq_eq_decide, field_eq_iff]

/-- R78: the extended part stands above the legacy part. -/
theorem toNat_rsvOf_both (x b : Byte) :
    (rsvOf (some x) (some b)).toNat = 8 * (rsvExt x).toNat + (rsvLegacy b).toNat :=
  toNat_append_eq_add _ _

theorem toNat_rsvOf_legacy (b : Byte) : (rsvOf none (some b)).toNat = (rsvLegacy b).toNat :=
  (toNat_append_eq_add _ _).trans (Nat.zero_add _)

theorem toNat_rsvOf_ext (x : Byte) : (rsvOf (some x) none).toNat = 8 * (rsvExt x).toNat :=
  toNat_append_eq_add _ _

/-- Settles O34, by the flags' bits in order and the two parts of the vector. -/
theorem reservedFlags : Obligations.ReservedFlags := by
  refine ⟨fun b => ?_, fun x => ?_, fun x b =>
    ⟨toNat_rsvOf_both x b, toNat_rsvOf_legacy b, toNat_rsvOf_ext x, rfl⟩⟩
  · simp only [rsvLegacy_eq, BitVec.getLsbD_append, BitVec.getLsbD_ofBool]
    simp
  · simp only [rsvExt_eq, BitVec.getLsbD_append, BitVec.getLsbD_ofBool]
    simp

/-- The flags of a request that handles one legacy byte. -/
theorem rsvOf_legacy (b : Byte) :
    rsvOf none (some b) =
      BitVec.ofNat 5 ((decide (b.toNat / 8 % 4 = 3)).toNat
        + 2 * (decide (b.toNat % 2 = 0 ∧ b.toNat / 8 % 4 ≠ 0)).toNat
        + 4 * (decide (b.toNat % 2 = 0 ∧ b.toNat / 64 = 3)).toNat) := by
  refine (BitVec.toNat_eq_nat.1 ?_).2
  simp only [toNat_rsvOf_legacy, rsvLegacy_eq, toNat_append_eq_add, BitVec.toNat_ofBool]
  omega

/-- The flags of a request that handles one extended byte. -/
theorem rsvOf_ext (x : Byte) :
    rsvOf (some x) none =
      BitVec.ofNat 5 (8 * (decide (x.toNat / 4 % 16 ≠ 0)).toNat + 16 * (decide (2 ≤ x.toNat / 64)).toNat) := by
  refine (BitVec.toNat_eq_nat.1 ?_).2
  simp only [toNat_rsvOf_ext, rsvExt_eq, toNat_append_eq_add, BitVec.toNat_ofBool]
  omega

/-! ### The encoders on operands that fit (R81 to R83) -/

theorem encodeCmd_of_lt {ni ct cp sm : Nat} (hni : ni < 4) (hct : ct < 4) (hcp : cp < 2) (hsm : sm < 4) :
    encodeCmd ni ct cp sm = .ok (BitVec.ofNat 8 (2 * ni + 8 * ct + 32 * cp + 64 * sm)) := by
  rw [encodeCmd_eq, if_neg hni.not_ge, if_neg hct.not_ge, if_neg hcp.not_ge, if_neg hsm.not_ge]

theorem encodeRsp_of_lt {ni ct cp tr ov : Nat} (hni : ni < 4) (hct : ct < 4) (hcp : cp < 2) (htr : tr < 2)
    (hov : ov < 2) :
    encodeRsp ni ct cp tr ov =
      .ok (BitVec.ofNat 8 (1 + 2 * ni + 8 * ct + 32 * cp + 64 * tr + 128 * ov)) := by
  rw [encodeRsp_eq, if_neg hni.not_ge, if_neg hct.not_ge, if_neg hcp.not_ge, if_neg htr.not_ge,
    if_neg hov.not_ge]

theorem encodeExt_of_lt {se pe rs ver : Nat} (hse : se < 2) (hpe : pe < 2) (hrs : rs < 16) (hver : ver < 4) :
    encodeExt se pe rs ver = .ok (BitVec.ofNat 8 (se + 2 * pe + 4 * rs + 64 * ver)) := by
  rw [encodeExt_eq, if_neg hse.not_ge, if_neg hpe.not_ge, if_neg hrs.not_ge, if_neg hver.not_ge]

/-- Field values that come from their own types are encoded to the byte that R49 lays out. -/
theorem encodeCmd_toNat (ni : BitVec 2) (ct : CallbackType) (cp : Bool) (sm : SleepMode) :
    encodeCmd ni.toNat ct.code.toNat cp.toNat sm.code.toNat = .ok (lcmdByte ni ct cp sm) := by
  rw [encodeCmd_of_lt ni.isLt ct.code.isLt cp.toNat_lt sm.code.isLt, ← toNat_lcmdByte, BitVec.ofNat_toNat,
    BitVec.setWidth_eq]

theorem encodeRsp_toNat (ni : BitVec 2) (ct : CallbackType) (cp tr ov : Bool) :
    encodeRsp ni.toNat ct.code.toNat cp.toNat tr.toNat ov.toNat = .ok (lrspByte ni ct cp tr ov) := by
  rw [encodeRsp_of_lt ni.isLt ct.code.isLt cp.toNat_lt tr.toNat_lt ov.toNat_lt, ← toNat_lrspByte,
    BitVec.ofNat_toNat, BitVec.setWidth_eq]

theorem encodeExt_toNat (se pe : Bool) (rs : BitVec 4) (ver : FrameFormatVersion) :
    encodeExt se.toNat pe.toNat rs.toNat ver.code.toNat = .ok (extByteOf se pe rs ver) := by
  rw [encodeExt_of_lt se.toNat_lt pe.toNat_lt rs.isLt ver.code.isLt, ← toNat_extByteOf, BitVec.ofNat_toNat,
    BitVec.setWidth_eq]

/-! ### FC_ENC_CMD, FC_ENC_RSP and FC_ENC_EXT (R84, R85, R87) -/

theorem exec_fcEncCmd_of_ok {ni ct cp sm : Nat} {b : Byte} (h : encodeCmd ni ct cp sm = .ok b) :
    CompletesWith (.fcEncCmd ni ct cp sm) s { b := b, rsv := rsvOf none (some b) } := by
  show execFcEncCmd ni ct cp sm s = _
  rw [execFcEncCmd, h]; rfl

theorem exec_fcEncCmd_of_error {ni ct cp sm : Nat} {st : Status} {n : OperandName}
    (h : encodeCmd ni ct cp sm = .error (st, n)) :
    CompletesWith (.fcEncCmd ni ct cp sm) s { status := st, info := .operand n } := by
  show execFcEncCmd ni ct cp sm s = _
  rw [execFcEncCmd, h]; rfl

theorem exec_fcEncRsp_of_ok {ni ct cp tr ov : Nat} {b : Byte} (h : encodeRsp ni ct cp tr ov = .ok b) :
    CompletesWith (.fcEncRsp ni ct cp tr ov) s { b := b, rsv := rsvOf none (some b) } := by
  show execFcEncRsp ni ct cp tr ov s = _
  rw [execFcEncRsp, h]; rfl

theorem exec_fcEncRsp_of_error {ni ct cp tr ov : Nat} {st : Status} {n : OperandName}
    (h : encodeRsp ni ct cp tr ov = .error (st, n)) :
    CompletesWith (.fcEncRsp ni ct cp tr ov) s { status := st, info := .operand n } := by
  show execFcEncRsp ni ct cp tr ov s = _
  rw [execFcEncRsp, h]; rfl

theorem exec_fcEncExt_of_ok {se pe rs ver : Nat} {x : Byte} (h : encodeExt se pe rs ver = .ok x) :
    CompletesWith (.fcEncExt se pe rs ver) s { x := x, rsv := rsvOf (some x) none } := by
  show execFcEncExt se pe rs ver s = _
  rw [execFcEncExt, h]; rfl

theorem exec_fcEncExt_of_error {se pe rs ver : Nat} {st : Status} {n : OperandName}
    (h : encodeExt se pe rs ver = .error (st, n)) :
    CompletesWith (.fcEncExt se pe rs ver) s { status := st, info := .operand n } := by
  show execFcEncExt se pe rs ver s = _
  rw [execFcEncExt, h]; rfl

/-- Settles O35: the byte's fields are the operands, so its flags are theirs; otherwise the first check that
fails answers. -/
theorem fcEncCmdEveryCase : Obligations.FcEncCmdEveryCase := by
  refine fun s ni ct cp sm => ⟨fun hni hct hcp hsm => ?_, fun hni => exec_fcEncCmd_of_error ?_,
    fun hni hct => exec_fcEncCmd_of_error ?_, fun hni hct hcp => exec_fcEncCmd_of_error ?_,
    fun hni hct hcp hsm => exec_fcEncCmd_of_error ?_⟩
  · have hanswer := exec_fcEncCmd_of_ok (s := s) (encodeCmd_of_lt hni hct hcp hsm)
    set b : Byte := BitVec.ofNat 8 (2 * ni + 8 * ct + 32 * cp + 64 * sm)
    have hsum : b.toNat = 2 * ni + 8 * ct + 32 * cp + 64 * sm := toNat_ofNat_of_lt (by omega)
    have hkind : b.toNat % 2 = 0 := by omega
    have htype : b.toNat / 8 % 4 = ct := by omega
    have hsleep : b.toNat / 64 = sm := by omega
    simpa only [rsvOf_legacy, hkind, htype, hsleep, true_and] using hanswer
  · rw [encodeCmd_eq, if_pos hni]
  · rw [encodeCmd_eq, if_neg hni.not_ge, if_pos hct]
  · rw [encodeCmd_eq, if_neg hni.not_ge, if_neg hct.not_ge, if_pos hcp]
  · rw [encodeCmd_eq, if_neg hni.not_ge, if_neg hct.not_ge, if_neg hcp.not_ge, if_pos hsm]

/-- Settles O36, as FC_ENC_CMD; a response byte has bit 0 set, so only the callback type raises a flag. -/
theorem fcEncRspEveryCase : Obligations.FcEncRspEveryCase := by
  refine fun s ni ct cp tr ov => ⟨fun hni hct hcp htr hov => ?_, fun hni => exec_fcEncRsp_of_error ?_,
    fun hni hct => exec_fcEncRsp_of_error ?_, fun hni hct hcp => exec_fcEncRsp_of_error ?_,
    fun hni hct hcp htr => exec_fcEncRsp_of_error ?_, fun hni hct hcp htr hov => exec_fcEncRsp_of_error ?_⟩
  · have hanswer := exec_fcEncRsp_of_ok (s := s) (encodeRsp_of_lt hni hct hcp htr hov)
    set b : Byte := BitVec.ofNat 8 (1 + 2 * ni + 8 * ct + 32 * cp + 64 * tr + 128 * ov)
    have hsum : b.toNat = 1 + 2 * ni + 8 * ct + 32 * cp + 64 * tr + 128 * ov := toNat_ofNat_of_lt (by omega)
    have hkind : b.toNat % 2 = 1 := by omega
    have htype : b.toNat / 8 % 4 = ct := by omega
    simpa [rsvOf_legacy, hkind, htype] using hanswer
  · rw [encodeRsp_eq, if_pos hni]
  · rw [encodeRsp_eq, if_neg hni.not_ge, if_pos hct]
  · rw [encodeRsp_eq, if_neg hni.not_ge, if_neg hct.not_ge, if_pos hcp]
  · rw [encodeRsp_eq, if_neg hni.not_ge, if_neg hct.not_ge, if_neg hcp.not_ge, if_pos htr]
  · rw [encodeRsp_eq, if_neg hni.not_ge, if_neg hct.not_ge, if_neg hcp.not_ge, if_neg htr.not_ge, if_pos hov]

/-- Settles O37, as FC_ENC_CMD, with the flags of the extended byte's own fields. -/
theorem fcEncExtEveryCase : Obligations.FcEncExtEveryCase := by
  refine fun s se pe rs ver => ⟨fun hse hpe hrs hver => ?_, fun hse => exec_fcEncExt_of_error ?_,
    fun hse hpe => exec_fcEncExt_of_error ?_, fun hse hpe hrs => exec_fcEncExt_of_error ?_,
    fun hse hpe hrs hver => exec_fcEncExt_of_error ?_⟩
  · have hanswer := exec_fcEncExt_of_ok (s := s) (encodeExt_of_lt hse hpe hrs hver)
    set x : Byte := BitVec.ofNat 8 (se + 2 * pe + 4 * rs + 64 * ver)
    have hsum : x.toNat = se + 2 * pe + 4 * rs + 64 * ver := toNat_ofNat_of_lt (by omega)
    have hreserved : x.toNat / 4 % 16 = rs := by omega
    have hversion : x.toNat / 64 = ver := by omega
    simpa only [rsvOf_ext, hreserved, hversion] using hanswer
  · rw [encodeExt_eq, if_pos hse]
  · rw [encodeExt_eq, if_neg hse.not_ge, if_pos hpe]
  · rw [encodeExt_eq, if_neg hse.not_ge, if_neg hpe.not_ge, if_pos hrs]
  · rw [encodeExt_eq, if_neg hse.not_ge, if_neg hpe.not_ge, if_neg hrs.not_ge, if_pos hver]

/-! ### FC_DEC and FC_DEC_EXT (R86, R88) -/

theorem exec_fcDec_of_wide {b : Nat} (h : 2 ^ 8 ≤ b) :
    CompletesWith (.fcDec b) s { status := .fieldOverflow, info := .operand .b } := by
  show execFcDec b s = _
  rw [execFcDec, if_pos h]; rfl

theorem exec_fcDec_toNat (b : Byte) :
    CompletesWith (.fcDec b.toNat) s { legacy := decodeLegacy b, rsv := rsvOf none (some b) } :=
  execFcDec_toNat b s

theorem exec_fcDecExt_of_wide {x : Nat} (h : 2 ^ 8 ≤ x) :
    CompletesWith (.fcDecExt x) s { status := .fieldOverflow, info := .operand .x } := by
  show execFcDecExt x s = _
  rw [execFcDecExt, if_pos h]; rfl

theorem exec_fcDecExt_toNat (x : Byte) :
    CompletesWith (.fcDecExt x.toNat) s { ext := decodeExt x, rsv := rsvOf (some x) none } :=
  execFcDecExt_toNat x s

theorem unpack_lcmdSet (c : Nat) :
    unpack lcmdSet c = [c % 2, c / 2 % 4, c / 8 % 4, c / 32 % 2, c / 64 % 4] := by
  simp [unpack_eq, lcmdSet, unpackValue, Nat.div_div_eq_div_mul]

theorem unpack_lrspSet (c : Nat) :
    unpack lrspSet c = [c % 2, c / 2 % 4, c / 8 % 4, c / 32 % 2, c / 64 % 2, c / 128 % 2] := by
  simp [unpack_eq, lrspSet, unpackValue, Nat.div_div_eq_div_mul]

theorem unpack_extSet (c : Nat) : unpack extSet c = [c % 2, c / 2 % 2, c / 4 % 16, c / 64 % 4] := by
  simp [unpack_eq, extSet, unpackValue, Nat.div_div_eq_div_mul]

/-- A lane below 256 is the number of a byte. -/
theorem exists_byte_of_lt {n : Nat} (h : n < 2 ^ 8) : ∃ b : Byte, b.toNat = n :=
  ⟨BitVec.ofNat 8 n, toNat_ofNat_of_lt h⟩

/-- Settles O38: in either view each field is the byte's bits at its offset, as `unpack` reads them. -/
theorem fcDecEveryCase : Obligations.FcDecEveryCase := by
  refine fun s n => ⟨exec_fcDec_of_wide, fun hn => ?_⟩
  obtain ⟨b, rfl⟩ := exists_byte_of_lt hn
  have hnetwork : (b.field 1 2).toNat = b.toNat / 2 % 4 := toNat_field b 1 2
  have htype : (b.field 3 2).toNat = b.toNat / 8 % 4 := toNat_field b 3 2
  have hpending : (b.getLsbD 5).toNat = b.toNat / 32 % 2 := toNat_getLsbD b 5
  refine ⟨decodeLegacy b, rsvOf_legacy b ▸ exec_fcDec_toNat b, ?_, ?_, ?_, fun hkind => ?_, fun hkind => ?_⟩
  · rw [decodeLegacy_networkIndex, hnetwork]
  · rw [decodeLegacy_callbackType, CallbackType.code_ofCode, htype]
  · rw [decodeLegacy_callbackPending]; exact getLsbD_eq_decide b 5
  · have hsleep : (b.field 6 2).toNat = b.toNat / 64 := (toNat_field b 6 2).trans (div_64_mod_4 b)
    rw [decodeLegacy_of_command (field_eq_iff.2 (by simpa using hkind))]
    refine ⟨rfl, ?_, rfl, rfl, ?_⟩
    · rw [SleepMode.code_ofCode, hsleep]
    · rw [unpack_lcmdSet, hkind, CallbackType.code_ofCode, SleepMode.code_ofCode, hnetwork, htype, hpending,
        hsleep, div_64_mod_4]
  · have htruncated : (b.getLsbD 6).toNat = b.toNat / 64 % 2 := toNat_getLsbD b 6
    have hoverflow : (b.getLsbD 7).toNat = b.toNat / 128 % 2 := toNat_getLsbD b 7
    have htop : b.toNat / 128 % 2 = b.toNat / 128 := by omega
    rw [decodeLegacy_of_response (field_eq_iff.2 (by simpa using hkind))]
    refine ⟨rfl, rfl, getLsbD_eq_decide b 6, ?_, ?_⟩
    · rw [← htop]; exact getLsbD_eq_decide b 7
    · rw [unpack_lrspSet, hkind, CallbackType.code_ofCode, hnetwork, htype, hpending, htruncated,
        hoverflow]

/-- Settles O39, as FC_DEC. -/
theorem fcDecExtEveryCase : Obligations.FcDecExtEveryCase := by
  refine fun s n => ⟨exec_fcDecExt_of_wide, fun hn => ?_⟩
  obtain ⟨x, rfl⟩ := exists_byte_of_lt hn
  have hsecurity : (x.getLsbD 0).toNat = x.toNat % 2 := by rw [toNat_getLsbD, pow_zero, Nat.div_one]
  have hpadding : (x.getLsbD 1).toNat = x.toNat / 2 % 2 := toNat_getLsbD x 1
  have hreserved : (x.field 2 4).toNat = x.toNat / 4 % 16 := toNat_field x 2 4
  have hversion : (x.field 6 2).toNat = x.toNat / 64 := (toNat_field x 6 2).trans (div_64_mod_4 x)
  refine ⟨decodeExt x, rsvOf_ext x ▸ exec_fcDecExt_toNat x, ?_, getLsbD_eq_decide x 1, hreserved, ?_, ?_⟩
  · rw [decodeExt, getLsbD_eq_decide, pow_zero, Nat.div_one]
  · rw [decodeExt, FrameFormatVersion.code_ofCode, hversion]
  · rw [unpack_extSet, decodeExt, FrameFormatVersion.code_ofCode, hversion, hreserved, hsecurity,
      hpadding, div_64_mod_4]

/-! ### The round trips (R89) -/

theorem toNat_decide_eq_one {n : Nat} (h : n < 2) : (decide (n = 1)).toNat = n := toNat_beq_one h

/-- Settles O40: operands in range are field values of their types, whose byte decodes to them; a byte's
fields are field values whose byte it is. -/
theorem controlByteRoundTrips : Obligations.ControlByteRoundTrips := by
  refine ⟨fun ni ct cp sm hni hct hcp hsm => ⟨_, ?_, decodeLegacy_lcmdByte _ _ _ _⟩,
    fun ni ct cp tr ov hni hct hcp htr hov => ⟨_, ?_, decodeLegacy_lrspByte _ _ _ _ _⟩,
    fun se pe rs ver hse hpe hrs hver => ⟨_, ?_, decodeExt_extByteOf _ _ _ _⟩,
    fun b => ⟨fun hkind => ?_, fun hkind => ?_⟩, fun x => ?_⟩
  · rw [← encodeCmd_toNat, CallbackType.code_ofCode, SleepMode.code_ofCode, toNat_ofNat_of_lt hni,
      toNat_ofNat_of_lt hct, toNat_ofNat_of_lt hsm, toNat_decide_eq_one hcp]
  · rw [← encodeRsp_toNat, CallbackType.code_ofCode, toNat_ofNat_of_lt hni,
      toNat_ofNat_of_lt hct, toNat_decide_eq_one hcp, toNat_decide_eq_one htr, toNat_decide_eq_one hov]
  · rw [← encodeExt_toNat, FrameFormatVersion.code_ofCode, toNat_ofNat_of_lt hrs,
      toNat_ofNat_of_lt hver, toNat_decide_eq_one hse, toNat_decide_eq_one hpe]
  · have hbit : b.field 0 1 = 0 := by rw [← ofBool_getLsbD, hkind]; rfl
    rw [encodeCmd_toNat, decodeLegacy_of_command hbit, lcmdByte_fields hbit]
  · have hbit : b.field 0 1 = 1 := by rw [← ofBool_getLsbD, hkind]; rfl
    rw [encodeRsp_toNat, decodeLegacy_of_response hbit, lrspByte_fields hbit]
  · rw [encodeExt_toNat]; exact congrArg _ (extByteOf_fields x)

/-! ### Every byte decodes (R90) -/

/-- A completed request's status, with the block state left as it was. -/
theorem completesWith_status {i : Instr} {r : Result} (h : CompletesWith i s r) :
    ∃ t r', exec i s = .next t ∧ t.results = s.results ++ [r'] ∧ r'.status = r.status ∧ t.block = s.block :=
  ⟨_, r, h, rfl, rfl, rfl⟩

/-- Settles O41, one decode operation at a time. -/
theorem everyByteDecodes : Obligations.EveryByteDecodes := by
  refine fun s v => ⟨fun hv => ?_, fun hv => ?_⟩ <;>
    simp only [List.forall_mem_cons, List.not_mem_nil, false_implies, implies_true, and_true]
  · obtain ⟨b, rfl⟩ := exists_byte_of_lt hv
    exact ⟨completesWith_status (exec_fcDec_toNat b), completesWith_status (exec_fcDecExt_toNat b),
      completesWith_status (exec_bfUnpack_of_container (d := lcmdSet) (by decide) rfl hv),
      completesWith_status (exec_bfUnpack_of_container (d := lrspSet) (by decide) rfl hv)⟩
  · exact ⟨completesWith_status (exec_fcDec_of_wide hv), completesWith_status (exec_fcDecExt_of_wide hv),
      completesWith_status (exec_bfUnpack_of_wide_container (d := lcmdSet) (by decide) rfl hv),
      completesWith_status (exec_bfUnpack_of_wide_container (d := lrspSet) (by decide) rfl hv)⟩

end Sys2Proof.Machine
end

section
/-! NAME is diagnostic (42_registry.md R97): from a state with its names blanked every instruction answers the
same but for names, and only a lookup returns one. -/

namespace Sys2Proof.Machine

/-! ### What the registry reads of a state with its names blanked -/

/-- A result with its name blanked, as `State.eraseNames` blanks those returned before. -/
def Result.eraseName (r : Result) : Result := { r with name := 0 }

variable (s : State)

@[simp] theorem eraseNames_extEn : s.eraseNames.extEn = s.extEn := rfl
@[simp] theorem eraseNames_regState : s.eraseNames.regState = s.regState := rfl
@[simp] theorem eraseNames_regCount : s.eraseNames.regCount = s.regCount := rfl
@[simp] theorem eraseNames_cfg : s.eraseNames.cfg = s.cfg := rfl

/-- A search compares `valid` and `id` alone. -/
@[simp] theorem find_eraseNames (id : FrameId) : find id s.eraseNames = find id s := by
  simp only [find, State.eraseNames, ← List.map_take, List.findIdx?_map]
  rfl

@[simp] theorem entryAt_eraseNames (i : Nat) : entryAt i s.eraseNames = { entryAt i s with name := 0 } := by
  simp only [entryAt, State.eraseNames, List.getD_eq_getElem?_getD, List.getElem?_map]
  cases s.entries[i]? <;> rfl

/-- The route is made of REG_STATE, the search and SEL. -/
@[simp] theorem dispatch_eraseNames (id : FrameId) : dispatch id s.eraseNames = dispatch id s := by
  simp only [dispatch, eraseNames_regState, find_eraseNames, entryAt_eraseNames]

@[simp] theorem eraseNames_eraseNames : s.eraseNames.eraseNames = s.eraseNames := by
  simp [State.eraseNames]

/-! ### What writing does to a state with its names blanked -/

theorem eraseNames_complete (r : Result) : (complete r s).eraseNames = complete r.eraseName s.eraseNames := by
  simp [complete, State.eraseNames, Result.eraseName]

theorem eraseNames_deliver (route : Route) (p : DeliveryRecord) :
    (deliver route p s).eraseNames = deliver route p s.eraseNames := by
  cases route <;> rfl

theorem eraseNames_insertEntry (e : Entry) :
    (insertEntry e s.eraseNames).eraseNames = (insertEntry e s).eraseNames := by
  simp [insertEntry, State.eraseNames, List.map_set, Function.comp_def]

variable {s}

/-- Completions from states alike but for names, with results alike but for the name, are alike. -/
theorem eraseAnswerNames_finish {r r' : Result} {u u' : State} (hr : r.eraseName = r'.eraseName)
    (hu : u.eraseNames = u'.eraseNames) : eraseAnswerNames (finish r u) = eraseAnswerNames (finish r' u') := by
  simp only [finish_eq, eraseAnswerNames, eraseNames_complete, hr, hu]

/-- An operation that writes nothing answers alike; every `raise` is one. -/
theorem eraseAnswerNames_read (r : Result) :
    eraseAnswerNames (finish r s.eraseNames) = eraseAnswerNames (finish r s) :=
  eraseAnswerNames_finish rfl (eraseNames_eraseNames s)

/-! ### The operations -/

variable (s)

theorem execCfgWrite_eraseNames (reg value : Nat) :
    eraseAnswerNames (execCfgWrite reg value s.eraseNames) = eraseAnswerNames (execCfgWrite reg value s) := by
  unfold execCfgWrite
  split
  · exact eraseAnswerNames_read _
  · split
    · split
      · exact eraseAnswerNames_read _
      · exact eraseAnswerNames_finish rfl (by simp [State.eraseNames])
    · exact eraseAnswerNames_read _

theorem execCfgRead_eraseNames (reg : Nat) :
    eraseAnswerNames (execCfgRead reg s.eraseNames) = eraseAnswerNames (execCfgRead reg s) := by
  unfold execCfgRead
  repeat' split
  all_goals exact eraseAnswerNames_read _

theorem execBfPack_eraseNames (dset : Nat) (values : List Nat) :
    eraseAnswerNames (execBfPack dset values s.eraseNames) = eraseAnswerNames (execBfPack dset values s) := by
  unfold execBfPack
  rw [eraseNames_cfg]
  repeat' split
  all_goals exact eraseAnswerNames_read _

theorem execBfUnpack_eraseNames (dset c : Nat) :
    eraseAnswerNames (execBfUnpack dset c s.eraseNames) = eraseAnswerNames (execBfUnpack dset c s) := by
  unfold execBfUnpack
  rw [eraseNames_cfg]
  repeat' split
  all_goals exact eraseAnswerNames_read _

theorem execFcEncCmd_eraseNames (ni ct cp sm : Nat) :
    eraseAnswerNames (execFcEncCmd ni ct cp sm s.eraseNames) = eraseAnswerNames (execFcEncCmd ni ct cp sm s) := by
  unfold execFcEncCmd
  split <;> exact eraseAnswerNames_read _

theorem execFcEncRsp_eraseNames (ni ct cp tr ov : Nat) :
    eraseAnswerNames (execFcEncRsp ni ct cp tr ov s.eraseNames) =
      eraseAnswerNames (execFcEncRsp ni ct cp tr ov s) := by
  unfold execFcEncRsp
  split <;> exact eraseAnswerNames_read _

theorem execFcEncExt_eraseNames (se pe rs ver : Nat) :
    eraseAnswerNames (execFcEncExt se pe rs ver s.eraseNames) =
      eraseAnswerNames (execFcEncExt se pe rs ver s) := by
  unfold execFcEncExt
  split <;> exact eraseAnswerNames_read _

theorem execFcDec_eraseNames (b : Nat) :
    eraseAnswerNames (execFcDec b s.eraseNames) = eraseAnswerNames (execFcDec b s) := by
  unfold execFcDec
  split <;> exact eraseAnswerNames_read _

theorem execFcDecExt_eraseNames (x : Nat) :
    eraseAnswerNames (execFcDecExt x s.eraseNames) = eraseAnswerNames (execFcDecExt x s) := by
  unfold execFcDecExt
  split <;> exact eraseAnswerNames_read _

theorem execEnvEncode_eraseNames (o : EnvelopeOperands) (payload : Option (List Byte)) :
    eraseAnswerNames (execEnvEncode o payload s.eraseNames) = eraseAnswerNames (execEnvEncode o payload s) := by
  unfold execEnvEncode
  rw [eraseNames_extEn, eraseNames_cfg]
  split
  · exact eraseAnswerNames_read _
  · split
    · exact eraseAnswerNames_read _
    · split
      · rfl
      · exact eraseAnswerNames_read _

/-- The delivery is the same, since the route is. -/
theorem execEnvDecode_eraseNames (len : Nat) (frame : Option (List Byte)) :
    eraseAnswerNames (execEnvDecode len frame s.eraseNames) = eraseAnswerNames (execEnvDecode len frame s) := by
  unfold execEnvDecode
  rw [eraseNames_extEn, eraseNames_cfg]
  split
  · rfl
  · split
    · exact eraseAnswerNames_read _
    · split
      · exact eraseAnswerNames_read _
      · split
        · exact eraseAnswerNames_read _
        · rw [dispatch_eraseNames]
          exact eraseAnswerNames_finish rfl (by rw [eraseNames_deliver, eraseNames_deliver, eraseNames_eraseNames])

/-- The one name that is read is the operand's, for its width. -/
theorem execRegRegister_eraseNames (id sel name : Nat) :
    eraseAnswerNames (execRegRegister id sel name s.eraseNames) =
      eraseAnswerNames (execRegRegister id sel name s) := by
  unfold execRegRegister
  rw [eraseNames_cfg]
  split
  · exact eraseAnswerNames_read _
  · split
    · exact eraseAnswerNames_read _
    · split
      · exact eraseAnswerNames_read _
      · unfold registerEntry
        rw [eraseNames_regState, find_eraseNames, eraseNames_regCount, eraseNames_cfg]
        split
        · exact eraseAnswerNames_read _
        · exact eraseAnswerNames_read _
        · split
          · exact eraseAnswerNames_finish rfl (by simp [State.eraseNames])
          · split
            · exact eraseAnswerNames_read _
            · exact eraseAnswerNames_finish rfl (eraseNames_insertEntry s _)

/-- The name in the result is the only difference. -/
theorem execRegLookup_eraseNames (id : Nat) :
    eraseAnswerNames (execRegLookup id s.eraseNames) = eraseAnswerNames (execRegLookup id s) := by
  unfold execRegLookup
  rw [eraseNames_regState, find_eraseNames]
  split
  · exact eraseAnswerNames_read _
  · split
    · exact eraseAnswerNames_read _
    · split
      · exact eraseAnswerNames_read _
      · rw [entryAt_eraseNames]
        exact eraseAnswerNames_finish rfl (eraseNames_eraseNames s)

theorem execRegSeal_eraseNames : eraseAnswerNames (execRegSeal s.eraseNames) = eraseAnswerNames (execRegSeal s) := by
  unfold execRegSeal
  rw [eraseNames_regState]
  split
  · exact eraseAnswerNames_read _
  · exact eraseAnswerNames_finish rfl (by simp [State.eraseNames])

theorem execRegClear_eraseNames :
    eraseAnswerNames (execRegClear s.eraseNames) = eraseAnswerNames (execRegClear s) :=
  eraseAnswerNames_finish rfl (by simp [State.eraseNames])

/-! ### Every instruction -/

theorem exec_eraseNames (i : Instr) : eraseAnswerNames (exec i s.eraseNames) = eraseAnswerNames (exec i s) := by
  cases i with
  | cfgWrite reg value => exact execCfgWrite_eraseNames s reg value
  | cfgRead reg => exact execCfgRead_eraseNames s reg
  | bfPack dset values => exact execBfPack_eraseNames s dset values
  | bfUnpack dset c => exact execBfUnpack_eraseNames s dset c
  | fcEncCmd ni ct cp sm => exact execFcEncCmd_eraseNames s ni ct cp sm
  | fcEncRsp ni ct cp tr ov => exact execFcEncRsp_eraseNames s ni ct cp tr ov
  | fcDec b => exact execFcDec_eraseNames s b
  | fcEncExt se pe rs ver => exact execFcEncExt_eraseNames s se pe rs ver
  | fcDecExt x => exact execFcDecExt_eraseNames s x
  | envEncode o payload => exact execEnvEncode_eraseNames s o payload
  | envDecode len frame => exact execEnvDecode_eraseNames s len frame
  | regRegister id sel name => exact execRegRegister_eraseNames s id sel name
  | regLookup id => exact execRegLookup_eraseNames s id
  | regSeal => exact execRegSeal_eraseNames s
  | regClear => exact execRegClear_eraseNames s
  | illegal | wLcmd | wLrsp | wExt => exact eraseAnswerNames_read _

variable {s}

/-- Of all effects only a quiet one has a name in its result, and then it is a lookup's. -/
theorem Effect.name_eq_zero {i : Instr} {r : Result} {s' : State} (he : Effect i s r s')
    (hlookup : ∀ id, i ≠ .regLookup id) : r.name = 0 := by
  cases he with
  | quiet _ _ _ hname => exact hname hlookup
  | selecting | aborting | inserting | sealing | clearing | delivering => rfl

/-- Settles O23: both answers are, but for names, the answer from the one state with its names blanked. -/
theorem namesHaveNoEffect : Obligations.NamesHaveNoEffect := by
  refine ⟨fun i s s' hsame => ?_, fun i s t r hx hresults hlookup => ?_⟩
  · calc eraseAnswerNames (exec i s)
      _ = eraseAnswerNames (exec i s.eraseNames) := (exec_eraseNames s i).symm
      _ = eraseAnswerNames (exec i s'.eraseNames) := by rw [hsame]
      _ = eraseAnswerNames (exec i s') := exec_eraseNames s' i
  · obtain ⟨s', he, -⟩ := exec_effect_of_results hx hresults
    exact he.name_eq_zero hlookup

end Sys2Proof.Machine
end

section
/-! The registry operations case by case (42_registry.md R92 to R96) and what is kept of a registered entry
(R98), read off the laws of `find` and the effects of Sys2Proof/Laws/Step.lean. -/

namespace Sys2Proof.Machine

variable {s t s' : State} {r : Result} {id sel name : Nat}

/-- Settles O43: in the invariant the search is decided by what the table holds, and it does not read names. -/
theorem findIsTheRegisteredIndex : Obligations.FindIsTheRegisteredIndex := by
  refine ⟨fun s id h => ⟨fun i => h.find_eq_some_iff, find_eq_none_iff, fun i j => h.holdsAt_unique⟩,
    fun s s' id hsame => ?_⟩
  rw [← find_eraseNames s, hsame, find_eraseNames]

/-! ### REG_REGISTER (R93) -/

theorem exec_regRegister_of_wide_id (hid : 2 ^ 16 ≤ id) :
    CompletesWith (.regRegister id sel name) s { status := .fieldOverflow, info := .operand .id } := by
  show execRegRegister id sel name s = raise .fieldOverflow (.operand .id) s
  rw [execRegRegister, if_pos hid]

theorem exec_regRegister_of_wide_sel (hid : id < 2 ^ 16) (hsel : 2 ^ s.cfg.wSel ≤ sel) :
    CompletesWith (.regRegister id sel name) s { status := .fieldOverflow, info := .operand .sel } := by
  show execRegRegister id sel name s = raise .fieldOverflow (.operand .sel) s
  rw [execRegRegister, if_neg hid.not_ge, if_pos hsel]

theorem exec_regRegister_of_wide_name (hid : id < 2 ^ 16) (hsel : sel < 2 ^ s.cfg.wSel)
    (hname : 2 ^ s.cfg.wName ≤ name) :
    CompletesWith (.regRegister id sel name) s { status := .fieldOverflow, info := .operand .name } := by
  show execRegRegister id sel name s = raise .fieldOverflow (.operand .name) s
  rw [execRegRegister, if_neg hid.not_ge, if_neg hsel.not_ge, if_pos hname]

/-- Operands in their ranges leave the answer to the registry. -/
theorem exec_regRegister_of_fit (hid : id < 2 ^ 16) (hsel : sel < 2 ^ s.cfg.wSel) (hname : name < 2 ^ s.cfg.wName) :
    exec (.regRegister id sel name) s = registerEntry (BitVec.ofNat 16 id) sel name s := by
  show execRegRegister id sel name s = _
  rw [execRegRegister, if_neg hid.not_ge, if_neg hsel.not_ge, if_neg hname.not_ge]

variable {k : FrameId}

theorem registerEntry_of_sealed (hst : s.regState = .sealed) :
    registerEntry k sel name s = raise .registryLocked .none s := by simp only [registerEntry, hst]

theorem registerEntry_of_aborted (hst : s.regState = .aborted) :
    registerEntry k sel name s = raise .registryAborted .none s := by simp only [registerEntry, hst]

theorem registerEntry_of_registered (hst : s.regState = .building) (hreg : s.Registered k) :
    registerEntry k sel name s = raise .duplicateFrameId (.operand .id) { s with regState := .aborted } := by
  simp only [registerEntry, hst, if_pos (find_isSome_iff.2 hreg)]

theorem registerEntry_of_full (hst : s.regState = .building) (hreg : ¬ s.Registered k)
    (hfull : s.regCount = s.cfg.nReg) : registerEntry k sel name s = raise .registryFull .none s := by
  simp only [registerEntry, hst, if_neg (find_isSome_iff.not.2 hreg), if_pos hfull]

theorem registerEntry_of_free (hst : s.regState = .building) (hreg : ¬ s.Registered k)
    (hfree : s.regCount ≠ s.cfg.nReg) : registerEntry k sel name s =
      finish { index := s.regCount } (insertEntry { valid := true, id := k, sel := sel, name := name } s) := by
  simp only [registerEntry, hst, if_neg (find_isSome_iff.not.2 hreg), if_neg hfree, insertEntry]

/-- Settles O44: the lanes in their order, then the registry's state, the search and the free index. -/
theorem regRegisterEveryCase : Obligations.RegRegisterEveryCase := by
  refine fun s id sel name => ⟨exec_regRegister_of_wide_id, exec_regRegister_of_wide_sel,
    exec_regRegister_of_wide_name, fun hid hsel hname => ?_⟩
  simp only [CompletesWith, exec_regRegister_of_fit hid hsel hname]
  exact ⟨registerEntry_of_sealed, registerEntry_of_aborted, registerEntry_of_registered,
    registerEntry_of_full, registerEntry_of_free⟩

/-! ### REG_LOOKUP (R94) -/

theorem exec_regLookup_of_wide_id (hid : 2 ^ 16 ≤ id) :
    CompletesWith (.regLookup id) s { status := .fieldOverflow, info := .operand .id } := by
  show execRegLookup id s = raise .fieldOverflow (.operand .id) s
  rw [execRegLookup, if_pos hid]

theorem exec_regLookup_of_aborted (hid : id < 2 ^ 16) (hst : s.regState = .aborted) :
    CompletesWith (.regLookup id) s { status := .registryAborted } := by
  show execRegLookup id s = raise .registryAborted .none s
  simp only [execRegLookup, if_neg hid.not_ge, hst]

/-- Settles O45: in the invariant the entry that holds the id is the one found. -/
theorem regLookupEveryCase : Obligations.RegLookupEveryCase := fun _ _ =>
  ⟨exec_regLookup_of_wide_id, exec_regLookup_of_aborted, exec_regLookup_of_not_registered,
    fun _ h hid hst hheld => exec_regLookup_of_find hid hst (h.find_eq_some_iff.2 hheld)⟩

/-! ### REG_SEAL (R95) and REG_CLEAR (R96) -/

theorem exec_regSeal_of_aborted (hst : s.regState = .aborted) :
    CompletesWith .regSeal s { status := .registryAborted } := by
  show execRegSeal s = raise .registryAborted .none s
  simp only [execRegSeal, hst]

theorem exec_regSeal_of_not_aborted (hst : s.regState ≠ .aborted) :
    exec .regSeal s = finish {} { s with regState := .sealed } := by
  show execRegSeal s = _
  unfold execRegSeal
  split
  · exact absurd ‹_› hst
  · rfl

theorem exec_regClear : exec .regClear s =
    finish {} { s with entries := List.replicate s.cfg.nReg {}, regCount := 0, regState := .building } := rfl

/-- Settles O46: REG_CLEAR's table is N_REG entries as reset leaves them. -/
theorem regSealAndRegClearEveryCase : Obligations.RegSealAndRegClearEveryCase := by
  refine fun s => ⟨exec_regSeal_of_aborted, exec_regSeal_of_not_aborted, List.replicate s.cfg.nReg {}, exec_regClear,
    List.length_replicate, fun e he => ?_⟩
  obtain rfl := List.eq_of_mem_replicate he
  exact ⟨rfl, rfl, rfl, rfl⟩

/-! ### Registered entries stay (R98 (b) to (d)) -/

/-- Every effect but REG_CLEAR's keeps the id at its index. -/
theorem Effect.holdsAt {i : Instr} {n : Nat} (he : Effect i s r s') (hclear : i ≠ .regClear)
    (hheld : s.HoldsAt n k) : s'.HoldsAt n k ∧ entryAt n s' = entryAt n s := by
  obtain ⟨hn, hvalid, hid⟩ := hheld
  obtain ⟨hentry, hn'⟩ := he.entryAt_eq hclear hn
  exact ⟨⟨hn', by rw [hentry, hvalid], by rw [hentry, hid]⟩, hentry⟩

/-- A registration that answers OK is of a new id. -/
theorem Effect.not_registered_of_ok (he : Effect (.regRegister id sel name) s r s') (hok : r.status = .ok) :
    ¬ s.Registered (BitVec.ofNat 16 id) := by
  cases he with
  | quiet _ _ _ _ _ _ herror => exact absurd hok (herror _ _ _ rfl).1
  | aborting => cases hok
  | inserting _ _ _ hi _ _ _ _ hreg => cases hi; exact hreg
  | selecting _ _ hi | sealing hi | clearing hi | delivering _ _ _ _ hi => cases hi

/-- In the invariant a lookup finds the index that holds the id. -/
theorem State.Inv.exec_regLookup_of_holdsAt {n : Nat} (h : s.Inv) (hst : s.regState ≠ .aborted)
    (hheld : s.HoldsAt n k) : CompletesWith (.regLookup k.toNat) s
      { sel := (entryAt n s).sel, name := (entryAt n s).name, index := n } :=
  exec_regLookup_of_find k.isLt hst (by rw [BitVec.ofNat_toNat, BitVec.setWidth_eq, h.find_eq_some_iff]; exact hheld)

/-- Settles O47: the effect keeps the entry, and a lookup in the next state reads it. -/
theorem registrationsPersist : Obligations.RegistrationsPersist := by
  intro i s t n id h hx hheld hclear
  have hnext : t.HoldsAt n id ∧ entryAt n t = entryAt n s := by
    obtain ⟨r, s', he, rfl⟩ := exec_effect hx
    exact he.holdsAt hclear hheld
  obtain ⟨hheld', hentry⟩ := hnext
  refine ⟨hheld', hentry, fun id' sel name m hi hresults => ?_, fun hst => ?_, exec_regLookup_of_aborted id.isLt⟩
  · subst hi
    obtain ⟨s', he, -⟩ := exec_effect_of_results hx hresults
    rintro rfl
    exact he.not_registered_of_ok rfl ⟨n, hheld⟩
  · rw [← hentry]
    exact (exec_keeps_inv h hx).exec_regLookup_of_holdsAt hst hheld'

end Sys2Proof.Machine
end

section
/-! ENV_DECODE case by case (43_envelope_dispatch.md R101 to R103): its checks in their order, and the three
answers of dispatch for a frame that parses. -/

namespace Sys2Proof.Machine

variable {s t : State} {len : Nat} {bytes : List Byte} {p : DeliveryRecord}

theorem exec_envDecode_of_long (frame : Option (List Byte)) (h : s.cfg.maxFrame < len) :
    exec (.envDecode len frame) s = .refused .frameTooLong := by
  show execEnvDecode len frame s = _
  simp only [execEnvDecode, if_pos h]

theorem exec_envDecode_of_wrong_len (hmax : len ≤ s.cfg.maxFrame) (h : len ≠ bytes.length) :
    CompletesWith (.envDecode len (some bytes)) s { status := .illegalOperation, info := .operand .len } := by
  show execEnvDecode len (some bytes) s = raise .illegalOperation (.operand .len) s
  simp only [execEnvDecode, if_neg hmax.not_gt, if_pos h]

theorem exec_envDecode_of_malformed (hmax : bytes.length ≤ s.cfg.maxFrame)
    (h : parseEnvelope bytes bytes.length s.extEn = none) :
    CompletesWith (.envDecode bytes.length (some bytes)) s
      { status := .malformedHeader, info := .operand .len } := by
  show execEnvDecode bytes.length (some bytes) s = raise .malformedHeader (.operand .len) s
  simp only [execEnvDecode, if_neg hmax.not_gt, ne_eq, not_true_eq_false, if_false, h]

/-- Settles O48, one check of ENV_DECODE at a time. -/
theorem envDecodeErrors : Obligations.EnvDecodeErrors := by
  refine fun s len bytes => ⟨exec_envDecode_of_long _, exec_envDecode_of_wrong_len, fun hmax hlen hshort => ?_⟩
  subst hlen
  exact exec_envDecode_of_malformed hmax (parseEnvelope_short hshort)

/-! ### Frames that parse -/

section Parsed

variable (hmax : bytes.length ≤ s.cfg.maxFrame) (hp : parseEnvelope bytes bytes.length s.extEn = some p)

include hmax hp

theorem exec_envDecode_of_aborted (hst : s.regState = .aborted) :
    CompletesWith (.envDecode bytes.length (some bytes)) s (decodeResult p .registryAborted none) := by
  have hx := execEnvDecode_of_parsed hmax hp
  rwa [dispatch_of_aborted hst] at hx

theorem exec_envDecode_of_not_registered (hst : s.regState ≠ .aborted) (hn : ¬ s.Registered p.id) :
    exec (.envDecode bytes.length (some bytes)) s =
      .next { s with dlog := s.dlog ++ [{ port := .unknown, record := p }], q := s.q + 1,
                     results := s.results ++ [decodeResult p .unknownFrameId (some .unknown)] } := by
  have hx := execEnvDecode_of_parsed hmax hp
  rwa [dispatch_of_not_registered hst hn] at hx

theorem exec_envDecode_of_holdsAt {n : Nat} (h : s.Inv) (hst : s.regState ≠ .aborted) (hheld : s.HoldsAt n p.id) :
    exec (.envDecode bytes.length (some bytes)) s =
      .next { s with dlog := s.dlog ++ [{ port := .codec (entryAt n s).sel, record := p }], q := s.q + 1,
                     results := s.results ++ [decodeResult p .ok (some (.codec (entryAt n s).sel))] } := by
  have hx := execEnvDecode_of_parsed hmax hp
  rwa [dispatch_of_find hst (h.find_eq_some_iff.2 hheld)] at hx

/-- Whatever dispatch answers, the result holds what was parsed. -/
theorem exec_envDecode_of_parsed : ∃ t, exec (.envDecode bytes.length (some bytes)) s = .next t ∧
    t.results = s.results ++ [decodeResult p (dispatch p.id s).1 (dispatch p.id s).2] :=
  ⟨_, execEnvDecode_of_parsed hmax hp, by simp⟩

end Parsed

/-- Settles O49: the frame parses to the record that is named, and dispatch has three answers. -/
theorem envDecodeLegacyFrame : Obligations.EnvDecodeLegacyFrame := by
  intro s sq b lo hi payload frame p r hext hmax
  have hp : parseEnvelope frame frame.length s.extEn = some p := hext ▸ parseEnvelope_legacy sq b lo hi payload
  exact ⟨exec_envDecode_of_aborted hmax hp, exec_envDecode_of_not_registered hmax hp,
    fun _ => exec_envDecode_of_holdsAt hmax hp⟩

/-- Settles O50, as O49 with the extended byte in the header. -/
theorem envDecodeExtendedFrame : Obligations.EnvDecodeExtendedFrame := by
  intro s sq b x lo hi payload frame p r hext hmax
  have hp : parseEnvelope frame frame.length s.extEn = some p := hext ▸ parseEnvelope_extended sq b x lo hi payload
  exact ⟨exec_envDecode_of_aborted hmax hp, exec_envDecode_of_not_registered hmax hp,
    fun _ => exec_envDecode_of_holdsAt hmax hp⟩

/-- A buffer presented with its own length that is answered, but not as malformed, was parsed. -/
theorem parsed_of_exec_envDecode {r : Result} (hx : exec (.envDecode bytes.length (some bytes)) s = .next t)
    (hres : t.results = s.results ++ [r]) (hst : r.status ≠ .malformedHeader) :
    bytes.length ≤ s.cfg.maxFrame ∧ ∃ p st route,
      parseEnvelope bytes bytes.length s.extEn = some p ∧ r = decodeResult p st route := by
  have hmax : bytes.length ≤ s.cfg.maxFrame := by
    by_contra hlong
    rw [exec_envDecode_of_long _ (Nat.lt_of_not_le hlong)] at hx
    cases hx
  cases hp : parseEnvelope bytes bytes.length s.extEn with
  | none =>
    rw [exec_envDecode_of_malformed hmax hp] at hx
    cases hx
    cases results_append_inj hres
    exact absurd rfl hst
  | some p =>
    obtain ⟨u, hu, hures⟩ := exec_envDecode_of_parsed hmax hp
    obtain rfl : u = t := by simpa [hu] using hx
    exact ⟨hmax, p, _, _, rfl, results_append_inj (hres.symm.trans hures)⟩

end Sys2Proof.Machine
end

section
/-! A failed ENV_DECODE is local (43_envelope_dispatch.md R106): it writes the log at most, and the history is
no input of any list of later requests. -/

namespace Sys2Proof.Machine

/-! ### Lists of requests answer alike after any history -/

/-- Histories are put one before the other. -/
theorem answerAfterHistory_afterHistory (s u : State) (a : Answer) :
    (s.afterHistory u).answerAfterHistory a = s.answerAfterHistory (u.answerAfterHistory a) := by
  cases a <;> simp [State.answerAfterHistory, State.afterHistory, Nat.add_assoc]

@[simp] theorem withoutHistory_afterHistory (s u : State) :
    (s.afterHistory u).withoutHistory = u.withoutHistory := rfl

/-- The history stands before what a list of requests answers without it, and does nothing else. -/
theorem execAll_eq_answerAfterHistory (is : List Instr) (s : State) :
    execAll is s = s.answerAfterHistory (execAll is s.withoutHistory) := by
  induction is generalizing s with
  | nil => simp [State.answerAfterHistory]
  | cons i is ih =>
    have hx := exec_eq_answerAfterHistory s i
    simp only [execAll]
    rw [hx]
    cases exec i s.withoutHistory with
    | next u =>
      show execAll is (s.afterHistory u) = s.answerAfterHistory (execAll is u)
      rw [ih (s.afterHistory u), ih u, withoutHistory_afterHistory, answerAfterHistory_afterHistory]
    | fault | refused => rfl

theorem execAll_refused_iff_withoutHistory (is : List Instr) (s : State) (why : Refusal) :
    execAll is s = .refused why ↔ execAll is s.withoutHistory = .refused why := by
  rw [execAll_eq_answerAfterHistory]
  cases execAll is s.withoutHistory <;> simp [State.answerAfterHistory]

/-- A list of requests that completes, completes on its own, and its history stands after the one before it. -/
theorem execAll_next_iff_withoutHistory (is : List Instr) (s u : State) :
    execAll is s = .next u ↔ ∃ v, execAll is s.withoutHistory = .next v ∧ u = s.afterHistory v := by
  rw [execAll_eq_answerAfterHistory]
  cases execAll is s.withoutHistory <;> simp [State.answerAfterHistory, eq_comm]

/-! ### What a failed decode writes (R106) -/

/-- A delivery is answered OK or UnknownFrameId, so every other failure leaves the log. -/
theorem Effect.dlog_of_failed_envDecode {s s' : State} {r : Result} {len : Nat} {frame : Option (List Byte)}
    (he : Effect (.envDecode len frame) s r s') (hok : r.status ≠ .ok) (hunknown : r.status ≠ .unknownFrameId) :
    s'.dlog = s.dlog := by
  cases he with
  | delivering bytes p st port _ _ _ hd =>
    rcases dispatch_cases p.id s with ⟨-, hd'⟩ | ⟨-, -, hd'⟩ | ⟨-, _, -, hd'⟩ <;> rw [hd] at hd' <;> cases hd'
    · exact absurd rfl hunknown
    · exact absurd rfl hok
  | quiet | selecting | aborting | inserting | sealing | clearing => rfl

/-- Settles O51: the block state is the same, so both runs of the later requests are the one run without
history after their own. -/
theorem failedDecodesAreLocal : Obligations.FailedDecodesAreLocal := by
  intro s t len frame r hx hres hok
  obtain ⟨-, -, hcfg, -⟩ := everyRequestReturnsOneResult _ _ _ hx
  obtain ⟨s', he, rfl⟩ := exec_effect_of_results hx hres
  have hblock : s'.block = s.block := he.block_eq_of_reader (by simp) (by simp) (by simp) (by simp)
  have hsame := withoutHistory_eq_of_block_eq (s := complete r s') hblock hcfg
  refine ⟨hblock, he.dlog_of_failed_envDecode hok, fun later => ⟨fun why => ?_, fun u hu => ?_⟩⟩
  · rw [execAll_refused_iff_withoutHistory, execAll_refused_iff_withoutHistory later (complete r s'), hsame]
  · obtain ⟨v, hv, rfl⟩ := (execAll_next_iff_withoutHistory later s u).1 hu
    exact ⟨_, v.results, v.dlog, (execAll_next_iff_withoutHistory later _ _).2 ⟨v, hsame ▸ hv, rfl⟩, rfl, rfl, rfl,
      rfl, rfl⟩

end Sys2Proof.Machine
end

section
/-! ENV_ENCODE case by case (43_envelope_dispatch.md R104): the checks on its header, and the frame it
returns. -/

namespace Sys2Proof.Machine

variable {s t : State} {o : EnvelopeOperands} {payload : List Byte} {e : Bool} {b : Byte} {x : Option Byte}
  {er : Status × OperandName}

/-! ### The header's checks, in their order -/

theorem encodeHeader_of_wide_seq (h : 2 ^ 8 ≤ o.seq) : encodeHeader e o = .error (.fieldOverflow, .seq) := by
  rw [encodeHeader, if_pos h]

theorem encodeHeader_of_wide_kind (hseq : o.seq < 2 ^ 8) (h : 2 ≤ o.kind) :
    encodeHeader e o = .error (.fieldOverflow, .kind) := by
  rw [encodeHeader, if_neg hseq.not_ge, if_pos h]

section KindInRange

variable (hseq : o.seq < 2 ^ 8) (hkind : o.kind < 2)

include hseq hkind

theorem encodeHeader_of_legacy_error (h : encodeLegacy o = .error er) : encodeHeader e o = .error er := by
  rw [encodeHeader, if_neg hseq.not_ge, if_neg hkind.not_ge, h]

theorem encodeHeader_of_extended_error (hlegacy : encodeLegacy o = .ok b) (h : encodeExtended e o = .error er) :
    encodeHeader e o = .error er := by
  rw [encodeHeader, if_neg hseq.not_ge, if_neg hkind.not_ge, hlegacy, h]

theorem encodeHeader_of_wide_id (hlegacy : encodeLegacy o = .ok b) (hext : encodeExtended e o = .ok x)
    (h : 2 ^ 16 ≤ o.id) : encodeHeader e o = .error (.fieldOverflow, .id) := by
  simp only [encodeHeader, if_neg hseq.not_ge, if_neg hkind.not_ge, hlegacy, hext, if_pos h]

theorem encodeHeader_of_fit (hlegacy : encodeLegacy o = .ok b) (hext : encodeExtended e o = .ok x)
    (hid : o.id < 2 ^ 16) : encodeHeader e o = .ok (b, x) := by
  simp only [encodeHeader, if_neg hseq.not_ge, if_neg hkind.not_ge, hlegacy, hext, if_neg hid.not_ge]

end KindInRange

theorem encodeLegacy_of_command (h : o.kind = 0) :
    encodeLegacy o = encodeCmd o.networkIndex o.callbackType o.callbackPending o.sleepMode :=
  if_pos h

theorem encodeLegacy_of_response (h : o.kind = 1) :
    encodeLegacy o = encodeRsp o.networkIndex o.callbackType o.callbackPending o.truncated o.overflow :=
  if_neg (by omega)

/-- The legacy format has no extended byte. -/
theorem encodeExtended_false : encodeExtended false o = .ok none := rfl

theorem encodeExtended_true :
    encodeExtended true o =
      (encodeExt o.securityEnabled o.paddingEnabled o.reserved o.frameFormatVersion).map some := by
  rw [encodeExtended, if_pos rfl]
  cases encodeExt o.securityEnabled o.paddingEnabled o.reserved o.frameFormatVersion <;> rfl

/-- The extended byte is there exactly in the extended format, and then it is `encode_ext`'s. -/
theorem encodeExtended_eq_ok_iff :
    encodeExtended e o = .ok x ↔ x.isSome = e ∧ ∀ y ∈ x,
      encodeExt o.securityEnabled o.paddingEnabled o.reserved o.frameFormatVersion = .ok y := by
  cases e with
  | false => cases x <;> simp [encodeExtended_false]
  | true =>
    rw [encodeExtended_true]
    cases x <;> cases encodeExt o.securityEnabled o.paddingEnabled o.reserved o.frameFormatVersion <;>
      simp [Except.map]

/-! ### What ENV_ENCODE answers for each header -/

theorem exec_envEncode_of_header_error (h : encodeHeader s.extEn o = .error er) :
    CompletesWith (.envEncode o (some payload)) s { status := er.1, info := .operand er.2 } := by
  show execEnvEncode o (some payload) s = raiseOperand er s
  simp only [execEnvEncode, h]

theorem exec_envEncode_of_long (h : encodeHeader s.extEn o = .ok (b, x))
    (hlong : s.cfg.maxFrame < headerLen s.extEn + payload.length) :
    exec (.envEncode o (some payload)) s = .refused .encodedFrameTooLong := by
  show execEnvEncode o (some payload) s = _
  simp only [execEnvEncode, h, if_pos hlong]

theorem exec_envEncode_of_header_ok (h : encodeHeader s.extEn o = .ok (b, x))
    (hmax : headerLen s.extEn + payload.length ≤ s.cfg.maxFrame) :
    CompletesWith (.envEncode o (some payload)) s
      { len := headerLen s.extEn + payload.length, frame := formatEnvelope o.seq b x o.id payload,
        rsv := rsvOf x (some b) } := by
  show execEnvEncode o (some payload) s = _
  simp only [execEnvEncode, h, if_neg hmax.not_gt]
  rfl

/-- An answer that is OK has a header that encodes and a frame within MAX_FRAME. -/
theorem header_of_exec_envEncode {r : Result} (hx : exec (.envEncode o (some payload)) s = .next t)
    (hres : t.results = s.results ++ [r]) (hok : r.status = .ok) :
    ∃ b x, encodeHeader s.extEn o = .ok (b, x) ∧ headerLen s.extEn + payload.length ≤ s.cfg.maxFrame ∧
      r = { len := headerLen s.extEn + payload.length, frame := formatEnvelope o.seq b x o.id payload,
            rsv := rsvOf x (some b) } := by
  cases h : encodeHeader s.extEn o with
  | error er =>
    rw [exec_envEncode_of_header_error h] at hx
    cases hx
    cases results_append_inj hres
    have herror := encodeHeader_error_status h
    rw [show er.1 = .ok from hok] at herror
    simp at herror
  | ok bx =>
    obtain ⟨b, x⟩ := bx
    by_cases hmax : headerLen s.extEn + payload.length ≤ s.cfg.maxFrame
    · rw [exec_envEncode_of_header_ok h hmax] at hx
      cases hx
      exact ⟨b, x, rfl, hmax, (results_append_inj hres).symm⟩
    · rw [exec_envEncode_of_long h (Nat.lt_of_not_le hmax)] at hx
      cases hx

/-- Settles O52, one check of the header at a time and then the frame's length. -/
theorem envEncodeErrors : Obligations.EnvEncodeErrors := by
  refine fun s o payload => ⟨fun hseq => exec_envEncode_of_header_error (encodeHeader_of_wide_seq hseq),
    fun hseq hkind => exec_envEncode_of_header_error (encodeHeader_of_wide_kind hseq hkind),
    fun hseq hkind legacy hlegacy => ⟨fun st n herror => ?_, fun b hb => ⟨fun st n hext hexterr => ?_, fun hext => ?_⟩⟩⟩
  · have hl : encodeLegacy o = .error (st, n) := hlegacy.symm.trans herror
    exact exec_envEncode_of_header_error (encodeHeader_of_legacy_error hseq hkind hl)
  · have hl : encodeLegacy o = .ok b := hlegacy.symm.trans hb
    have hx : encodeExtended s.extEn o = .error (st, n) := by rw [hext, encodeExtended_true, hexterr]; rfl
    exact exec_envEncode_of_header_error (encodeHeader_of_extended_error hseq hkind hl hx)
  · have hl : encodeLegacy o = .ok b := hlegacy.symm.trans hb
    obtain ⟨x, hx⟩ : ∃ x, encodeExtended s.extEn o = .ok x := by
      cases he : s.extEn with
      | false => exact ⟨none, encodeExtended_false⟩
      | true =>
        obtain ⟨y, hy⟩ := hext.resolve_left (by simp [he])
        exact ⟨some y, by rw [encodeExtended_true, hy]; rfl⟩
    exact ⟨fun hid => exec_envEncode_of_header_error (encodeHeader_of_wide_id hseq hkind hl hx hid),
      fun hid => exec_envEncode_of_long (encodeHeader_of_fit hseq hkind hl hx hid)⟩

/-- Settles O53: operands in range give the header, whose frame has two layouts. -/
theorem envEncodeFrame : Obligations.EnvEncodeFrame := by
  intro s o payload b hseq hkind hid hmax hcmd hrsp
  have hlegacy : encodeLegacy o = .ok b := by
    rcases Nat.le_one_iff_eq_zero_or_eq_one.1 (Nat.le_of_lt_succ hkind) with h | h
    · exact (encodeLegacy_of_command h).trans (hcmd h)
    · exact (encodeLegacy_of_response h).trans (hrsp h)
  have hanswer {x : Option Byte} (hx : encodeExtended s.extEn o = .ok x) :=
    exec_envEncode_of_header_ok (encodeHeader_of_fit hseq hkind hlegacy hx hid) hmax
  refine ⟨fun hext => ?_, fun hext x hx => ?_⟩
  · have h := hanswer (x := none) (by rw [hext, encodeExtended_false])
    rwa [hext, formatEnvelope_legacy] at h
  · have h := hanswer (x := some x) (by rw [hext, encodeExtended_true, hx]; rfl)
    rwa [hext, formatEnvelope_extended] at h

end Sys2Proof.Machine
end

section
/-! The two round trips of an envelope (43_envelope_dispatch.md R105), through the record of its parts: the
formatter and the parser are inverse on frames, the header encoder and the decoded fields on headers. -/

namespace Sys2Proof.Machine

variable {o : EnvelopeOperands} {payload bytes : List Byte} {e : Bool} {b : Byte} {x : Option Byte}

/-! ### Frames and their parts (R55, R101, R104) -/

/-- The delivery record of a frame made of these parts; the extended byte tells the format. -/
def recordOf (seq b : Byte) (x : Option Byte) (id : FrameId) (payload : List Byte) : DeliveryRecord :=
  { seq := seq, legacy := decodeLegacy b, extPresent := x.isSome, ext := (x.map decodeExt).getD {}, id := id,
    plen := payload.length, payload := payload, rsv := rsvOf x (some b) }

theorem length_formatEnvelope (seq : Nat) (b : Byte) (x : Option Byte) (id : Nat) (payload : List Byte) :
    (formatEnvelope seq b x id payload).length = headerLen x.isSome + payload.length := by
  cases x with
  | none => simp [formatEnvelope_legacy, headerLen]; omega
  | some x => simp [formatEnvelope_extended, headerLen]; omega

/-- The two bytes of an identifier, high byte first (R57). -/
theorem append_id_bytes (id : Nat) :
    BitVec.ofNat 8 (id / 256) ++ BitVec.ofNat 8 id = (BitVec.ofNat 16 id : FrameId) := by
  apply BitVec.eq_of_toNat_eq
  rw [toNat_append_eq_add]
  simp only [BitVec.toNat_ofNat]
  omega

/-- What was formatted is parsed. -/
theorem parseEnvelope_formatEnvelope (seq : Nat) (b : Byte) (x : Option Byte) (id : Nat) (payload : List Byte) :
    parseEnvelope (formatEnvelope seq b x id payload) (formatEnvelope seq b x id payload).length x.isSome =
      some (recordOf (BitVec.ofNat 8 seq) b x (BitVec.ofNat 16 id) payload) := by
  cases x with
  | none =>
    rw [formatEnvelope_legacy, ← append_id_bytes]
    exact parseEnvelope_legacy _ _ _ _ _
  | some x =>
    rw [formatEnvelope_extended, ← append_id_bytes]
    exact parseEnvelope_extended _ _ _ _ _ _

/-- The number of an identifier holds its low byte below its high byte (R57). -/
theorem id_bytes_append (lo hi : Byte) :
    BitVec.ofNat 8 (hi ++ lo).toNat = lo ∧ BitVec.ofNat 8 ((hi ++ lo).toNat / 256) = hi := by
  have hlo := lo.isLt
  have hhi := hi.isLt
  simp only [toNat_append_eq_add, ← BitVec.toNat_inj, BitVec.toNat_ofNat]
  omega

/-- What is parsed was formatted of the parts it is parsed to. -/
theorem exists_formatEnvelope_of_parse {p : DeliveryRecord} (h : parseEnvelope bytes bytes.length e = some p) :
    ∃ seq b x id payload, bytes = formatEnvelope seq.toNat b x id.toNat payload ∧ x.isSome = e ∧
      p = recordOf seq b x id payload := by
  have hlen : ¬ bytes.length < 4 + e.toNat := fun hshort => by rw [parseEnvelope_short hshort] at h; cases h
  cases e with
  | false =>
    obtain ⟨sq, b, lo, hi, payload, rfl⟩ := exists_legacy_header (Nat.le_of_not_lt hlen)
    have hp := parseEnvelope_legacy sq b lo hi payload
    obtain ⟨hlo, hhi⟩ := id_bytes_append lo hi
    refine ⟨sq, b, none, hi ++ lo, payload, ?_, rfl, Option.some.inj (h.symm.trans hp)⟩
    rw [formatEnvelope_legacy, hlo, hhi]
    simp
  | true =>
    obtain ⟨sq, b, x, lo, hi, payload, rfl⟩ := exists_extended_header (Nat.le_of_not_lt hlen)
    have hp := parseEnvelope_extended sq b x lo hi payload
    obtain ⟨hlo, hhi⟩ := id_bytes_append lo hi
    refine ⟨sq, b, some x, hi ++ lo, payload, ?_, rfl, Option.some.inj (h.symm.trans hp)⟩
    rw [formatEnvelope_extended, hlo, hhi]
    simp

/-! ### Operands that encode are field values -/

theorem fit_of_packByte {d : DescSet} {names : List OperandName} {v : List Nat} (hlen : v.length = d.fields.length)
    (h : packByte d names v = .ok b) : Fit d.fields v := by
  rw [← firstBadField_eq_none 0 hlen]
  cases hbad : firstBadField 0 d.fields v with
  | none => rfl
  | some er => simp [packByte, pack, hbad] at h

theorem exists_bitVec_of_lt {w n : Nat} (h : n < 2 ^ w) : ∃ v : BitVec w, v.toNat = n :=
  ⟨BitVec.ofNat w n, toNat_ofNat_of_lt h⟩

theorem exists_bool_of_lt {n : Nat} (h : n < 2) : ∃ v : Bool, v.toNat = n :=
  ⟨decide (n = 1), toNat_decide_eq_one h⟩

theorem exists_callbackType_of_lt {n : Nat} (h : n < 4) : ∃ v : CallbackType, v.code.toNat = n :=
  ⟨.ofCode (BitVec.ofNat 2 n), by rw [CallbackType.code_ofCode, toNat_ofNat_of_lt h]⟩

theorem exists_sleepMode_of_lt {n : Nat} (h : n < 4) : ∃ v : SleepMode, v.code.toNat = n :=
  ⟨.ofCode (BitVec.ofNat 2 n), by rw [SleepMode.code_ofCode, toNat_ofNat_of_lt h]⟩

theorem exists_frameFormatVersion_of_lt {n : Nat} (h : n < 4) : ∃ v : FrameFormatVersion, v.code.toNat = n :=
  ⟨.ofCode (BitVec.ofNat 2 n), by rw [FrameFormatVersion.code_ofCode, toNat_ofNat_of_lt h]⟩

/-- R81: operands that give a command byte are the numbers of its fields. -/
theorem exists_fields_of_encodeCmd {ni ct cp sm : Nat} (h : encodeCmd ni ct cp sm = .ok b) :
    ∃ (n : BitVec 2) (t : CallbackType) (p : Bool) (m : SleepMode), n.toNat = ni ∧ t.code.toNat = ct ∧
      p.toNat = cp ∧ m.code.toNat = sm ∧ b = lcmdByte n t p m := by
  have hfit : Fit lcmdSet.fields [0, ni, ct, cp, sm] := fit_of_packByte rfl h
  simp only [lcmdSet, Fit, List.forall₂_cons] at hfit
  obtain ⟨-, hni, hct, hcp, hsm, -⟩ := hfit
  obtain ⟨n, rfl⟩ := exists_bitVec_of_lt hni
  obtain ⟨t, rfl⟩ := exists_callbackType_of_lt hct
  obtain ⟨p, rfl⟩ := exists_bool_of_lt hcp
  obtain ⟨m, rfl⟩ := exists_sleepMode_of_lt hsm
  rw [encodeCmd_toNat] at h
  exact ⟨n, t, p, m, rfl, rfl, rfl, rfl, (Except.ok.inj h).symm⟩

/-- R82: operands that give a response byte are the numbers of its fields. -/
theorem exists_fields_of_encodeRsp {ni ct cp tr ov : Nat} (h : encodeRsp ni ct cp tr ov = .ok b) :
    ∃ (n : BitVec 2) (t : CallbackType) (p u v : Bool), n.toNat = ni ∧ t.code.toNat = ct ∧
      p.toNat = cp ∧ u.toNat = tr ∧ v.toNat = ov ∧ b = lrspByte n t p u v := by
  have hfit : Fit lrspSet.fields [1, ni, ct, cp, tr, ov] := fit_of_packByte rfl h
  simp only [lrspSet, Fit, List.forall₂_cons] at hfit
  obtain ⟨-, hni, hct, hcp, htr, hov, -⟩ := hfit
  obtain ⟨n, rfl⟩ := exists_bitVec_of_lt hni
  obtain ⟨t, rfl⟩ := exists_callbackType_of_lt hct
  obtain ⟨p, rfl⟩ := exists_bool_of_lt hcp
  obtain ⟨u, rfl⟩ := exists_bool_of_lt htr
  obtain ⟨v, rfl⟩ := exists_bool_of_lt hov
  rw [encodeRsp_toNat] at h
  exact ⟨n, t, p, u, v, rfl, rfl, rfl, rfl, rfl, (Except.ok.inj h).symm⟩

/-- R83: operands that give an extended byte are the numbers of its fields. -/
theorem exists_fields_of_encodeExt {se pe rs ver : Nat} {y : Byte} (h : encodeExt se pe rs ver = .ok y) :
    ∃ (u v : Bool) (n : BitVec 4) (m : FrameFormatVersion), u.toNat = se ∧ v.toNat = pe ∧ n.toNat = rs ∧
      m.code.toNat = ver ∧ y = extByteOf u v n m := by
  have hfit : Fit extSet.fields [se, pe, rs, ver] := fit_of_packByte rfl h
  simp only [extSet, Fit, List.forall₂_cons] at hfit
  obtain ⟨hse, hpe, hrs, hver, -⟩ := hfit
  obtain ⟨u, rfl⟩ := exists_bool_of_lt hse
  obtain ⟨v, rfl⟩ := exists_bool_of_lt hpe
  obtain ⟨n, rfl⟩ := exists_bitVec_of_lt hrs
  obtain ⟨m, rfl⟩ := exists_frameFormatVersion_of_lt hver
  rw [encodeExt_toNat] at h
  exact ⟨u, v, n, m, rfl, rfl, rfl, rfl, (Except.ok.inj h).symm⟩

/-! ### Headers and their operands -/

/-- The lanes of ENV_ENCODE that name the fields of a decoded frame. -/
def DeliveryRecord.operands (p : DeliveryRecord) : EnvelopeOperands :=
  { seq := p.seq.toNat
    kind := p.legacy.kind.code.toNat
    networkIndex := p.legacy.networkIndex.toNat
    callbackType := p.legacy.callbackType.code.toNat
    callbackPending := p.legacy.callbackPending.toNat
    sleepMode := p.legacy.sleepMode.code.toNat
    truncated := p.legacy.truncated.toNat
    overflow := p.legacy.overflow.toNat
    securityEnabled := p.ext.securityEnabled.toNat
    paddingEnabled := p.ext.paddingEnabled.toNat
    reserved := p.ext.reserved.toNat
    frameFormatVersion := p.ext.frameFormatVersion.code.toNat
    id := p.id.toNat }

/-- The operands with those cleared that the format and the kind do not read (D31). -/
def operandsRead (e : Bool) (o : EnvelopeOperands) : EnvelopeOperands :=
  { o with
    sleepMode := if o.kind = 0 then o.sleepMode else 0
    truncated := if o.kind = 1 then o.truncated else 0
    overflow := if o.kind = 1 then o.overflow else 0
    securityEnabled := if e then o.securityEnabled else 0
    paddingEnabled := if e then o.paddingEnabled else 0
    reserved := if e then o.reserved else 0
    frameFormatVersion := if e then o.frameFormatVersion else 0 }

theorem decodeLegacy_of_encodeLegacy (hkind : o.kind < 2) (h : encodeLegacy o = .ok b) :
    (decodeLegacy b).kind.code.toNat = o.kind ∧
    (decodeLegacy b).networkIndex.toNat = o.networkIndex ∧
    (decodeLegacy b).callbackType.code.toNat = o.callbackType ∧
    (decodeLegacy b).callbackPending.toNat = o.callbackPending ∧
    (decodeLegacy b).sleepMode.code.toNat = (if o.kind = 0 then o.sleepMode else 0) ∧
    (decodeLegacy b).truncated.toNat = (if o.kind = 1 then o.truncated else 0) ∧
    (decodeLegacy b).overflow.toNat = (if o.kind = 1 then o.overflow else 0) := by
  rcases Nat.le_one_iff_eq_zero_or_eq_one.1 (Nat.le_of_lt_succ hkind) with hk | hk
  · rw [encodeLegacy_of_command hk] at h
    obtain ⟨n, t, p, m, hni, hct, hcp, hsm, rfl⟩ := exists_fields_of_encodeCmd h
    rw [decodeLegacy_lcmdByte, hk]
    exact ⟨rfl, hni, hct, hcp, hsm, rfl, rfl⟩
  · rw [encodeLegacy_of_response hk] at h
    obtain ⟨n, t, p, u, v, hni, hct, hcp, htr, hov, rfl⟩ := exists_fields_of_encodeRsp h
    rw [decodeLegacy_lrspByte, hk]
    exact ⟨rfl, hni, hct, hcp, rfl, htr, hov⟩

theorem decodeExt_of_encodeExtended (h : encodeExtended e o = .ok x) :
    ((x.map decodeExt).getD {}).securityEnabled.toNat = (if e then o.securityEnabled else 0) ∧
    ((x.map decodeExt).getD {}).paddingEnabled.toNat = (if e then o.paddingEnabled else 0) ∧
    ((x.map decodeExt).getD {}).reserved.toNat = (if e then o.reserved else 0) ∧
    ((x.map decodeExt).getD {}).frameFormatVersion.code.toNat = (if e then o.frameFormatVersion else 0) := by
  obtain ⟨rfl, hy⟩ := encodeExtended_eq_ok_iff.1 h
  cases x with
  | none => exact ⟨rfl, rfl, rfl, rfl⟩
  | some y =>
    obtain ⟨u, v, n, m, hse, hpe, hrs, hver, rfl⟩ := exists_fields_of_encodeExt (hy y rfl)
    simp only [Option.map_some, Option.getD_some, decodeExt_extByteOf]
    exact ⟨hse, hpe, hrs, hver⟩

/-- R105, first part, on headers: the fields of the bytes that were encoded are the operands that were read. -/
theorem operands_of_encodeHeader (h : encodeHeader e o = .ok (b, x)) (payload : List Byte) :
    (recordOf (BitVec.ofNat 8 o.seq) b x (BitVec.ofNat 16 o.id) payload).operands = operandsRead e o := by
  obtain ⟨hseq, hkind, hid, hlegacy, hext⟩ := encodeHeader_ok h
  obtain ⟨hk, hni, hct, hcp, hsm, htr, hov⟩ := decodeLegacy_of_encodeLegacy hkind hlegacy
  obtain ⟨hse, hpe, hrs, hver⟩ := decodeExt_of_encodeExtended hext
  simp only [DeliveryRecord.operands, recordOf, operandsRead, toNat_ofNat_of_lt hseq,
    toNat_ofNat_of_lt hid, hk, hni, hct, hcp, hsm, htr, hov, hse, hpe, hrs, hver]

/-- The fields of a legacy byte are encoded to it, in the view that its bit 0 selects. -/
theorem encodeLegacy_operands (seq b : Byte) (x : Option Byte) (id : FrameId) (payload : List Byte) :
    encodeLegacy (recordOf seq b x id payload).operands = .ok b := by
  rcases BitVec.eq_zero_or_eq_one (b.field 0 1) with hbit | hbit
  · obtain ⟨n, t, p, m, rfl⟩ : ∃ n t p m, b = lcmdByte n t p m := ⟨_, _, _, _, (lcmdByte_fields hbit).symm⟩
    rw [recordOf, decodeLegacy_lcmdByte, encodeLegacy_of_command rfl]
    exact encodeCmd_toNat n t p m
  · obtain ⟨n, t, p, u, v, rfl⟩ : ∃ n t p u v, b = lrspByte n t p u v :=
      ⟨_, _, _, _, _, (lrspByte_fields hbit).symm⟩
    rw [recordOf, decodeLegacy_lrspByte, encodeLegacy_of_response rfl]
    exact encodeRsp_toNat n t p u v

theorem encodeExtended_operands (seq b : Byte) (x : Option Byte) (id : FrameId) (payload : List Byte) :
    encodeExtended x.isSome (recordOf seq b x id payload).operands = .ok x := by
  refine encodeExtended_eq_ok_iff.2 ⟨rfl, ?_⟩
  rintro y rfl
  exact (encodeExt_toNat _ _ _ _).trans (congrArg _ (extByteOf_fields y))

/-- R105, second part, on headers: the fields of control bytes are encoded to these bytes. -/
theorem encodeHeader_operands (seq b : Byte) (x : Option Byte) (id : FrameId) (payload : List Byte) :
    encodeHeader x.isSome (recordOf seq b x id payload).operands = .ok (b, x) :=
  encodeHeader_of_fit seq.isLt (FrameKind.code _).isLt (encodeLegacy_operands seq b x id payload)
    (encodeExtended_operands seq b x id payload) id.isLt

/-! ### The round trips -/

/-- Settles O55: the frame parses to the record of its parts, whose operands are those that were read. -/
theorem encodedFramesDecodeToTheirOperands : Obligations.EncodedFramesDecodeToTheirOperands := by
  intro s t s' o payload r hx hres hok hext hcfg
  obtain ⟨b, x, hheader, hmax, rfl⟩ := header_of_exec_envEncode hx hres hok
  obtain ⟨-, -, -, -, hextended⟩ := encodeHeader_ok hheader
  obtain ⟨hpresent, -⟩ := encodeExtended_eq_ok_iff.1 hextended
  have hlen := length_formatEnvelope o.seq b x o.id payload
  rw [hpresent] at hlen
  have hparse := parseEnvelope_formatEnvelope o.seq b x o.id payload
  rw [hpresent, ← hext] at hparse
  obtain ⟨t', hx', hres'⟩ := exec_envDecode_of_parsed (by rw [hlen, hcfg]; exact hmax) hparse
  have hoperands := operands_of_encodeHeader hheader payload
  simp only [DeliveryRecord.operands, operandsRead, EnvelopeOperands.mk.injEq] at hoperands
  obtain ⟨hseq, hkind, hni, hct, hcp, hsm, htr, hov, hse, hpe, hrs, hver, hid⟩ := hoperands
  exact ⟨hlen.symm, t', _, hx', hres', hseq, hkind, hid, hni, hct, hcp, hsm, htr, hov, hpresent, hse, hpe, hrs, hver,
    rfl, rfl, rfl⟩

/-- Settles O56: the frame was formatted of its parts, whose operands are encoded to the same header. -/
theorem decodedFramesEncodeToTheirBytes : Obligations.DecodedFramesEncodeToTheirBytes := by
  intro s t s' bytes r hx hres hst hext hcfg
  obtain ⟨hmax, p, st, route, hparse, rfl⟩ := parsed_of_exec_envDecode hx hres hst
  obtain ⟨seq, b, x, id, payload, rfl, hpresent, rfl⟩ := exists_formatEnvelope_of_parse hparse
  have hheader := encodeHeader_operands seq b x id payload
  rw [hpresent, ← hext] at hheader
  have hlen := length_formatEnvelope seq.toNat b x id.toNat payload
  rw [hpresent, ← hext] at hlen
  rw [hlen, ← hcfg] at hmax
  exact ⟨_, _, exec_envEncode_of_header_ok hheader hmax, rfl, rfl, rfl, hlen.symm, rfl⟩

end Sys2Proof.Machine
end

section
/-! The configuration registers and the undefined operation codes (spec 44_config.md R107 to R109), one case
of each access at a time; the accesses that succeed are `exec_cfgWrite_ctrl`, `exec_cfgRead_ctrl` and
`exec_cfgRead_regStatus`. -/

namespace Sys2Proof.Machine

variable {s : State} {reg value : Nat}

/-! ### CFG_WRITE (R107) -/

theorem exec_cfgWrite_of_wide_reg (hreg : 2 ^ 8 ≤ reg) :
    CompletesWith (.cfgWrite reg value) s { status := .fieldOverflow, info := .operand .reg } := by
  show execCfgWrite reg value s = raise .fieldOverflow (.operand .reg) s
  rw [execCfgWrite, if_pos hreg]

theorem exec_cfgWrite_ctrl_of_wide_value (hvalue : 2 ≤ value) :
    CompletesWith (.cfgWrite 0 value) s { status := .fieldOverflow, info := .operand .value } := by
  show execCfgWrite 0 value s = raise .fieldOverflow (.operand .value) s
  rw [execCfgWrite, if_neg (by decide), if_pos rfl, if_pos hvalue]

/-- REG_STATUS is read-only and the indices above it are undefined: nothing but CTRL is written. -/
theorem exec_cfgWrite_of_not_ctrl (hreg : reg < 2 ^ 8) (hctrl : reg ≠ 0) :
    CompletesWith (.cfgWrite reg value) s { status := .illegalOperation, info := .operand .reg } := by
  show execCfgWrite reg value s = raise .illegalOperation (.operand .reg) s
  rw [execCfgWrite, if_neg hreg.not_ge, if_neg hctrl]

/-- Settles O25: the check of the index, then CTRL's two cases, then the indices that are not written. -/
theorem cfgWriteOfEveryRegister : Obligations.CfgWriteOfEveryRegister := by
  refine fun s reg value => ⟨exec_cfgWrite_of_wide_reg, ?_, ?_, fun hpos hreg => ?_⟩
  · rintro rfl hvalue
    exact exec_cfgWrite_ctrl_of_wide_value hvalue
  · rintro rfl hvalue
    exact exec_cfgWrite_ctrl hvalue
  · exact exec_cfgWrite_of_not_ctrl hreg (Nat.ne_zero_of_lt hpos)

/-! ### CFG_READ (R108) -/

theorem exec_cfgRead_of_wide_reg (hreg : 2 ^ 8 ≤ reg) :
    CompletesWith (.cfgRead reg) s { status := .fieldOverflow, info := .operand .reg } := by
  show execCfgRead reg s = raise .fieldOverflow (.operand .reg) s
  rw [execCfgRead, if_pos hreg]

theorem exec_cfgRead_of_undefined (hreg : reg < 2 ^ 8) (hctrl : reg ≠ 0) (hstatus : reg ≠ 1) :
    CompletesWith (.cfgRead reg) s { status := .illegalOperation, info := .operand .reg } := by
  show execCfgRead reg s = raise .illegalOperation (.operand .reg) s
  rw [execCfgRead, if_neg hreg.not_ge, if_neg hctrl, if_neg hstatus]

/-- CTRL with the bit that EXT_EN is (R21). -/
theorem exec_cfgRead_ctrl_of_extEn {e : Bool} (hext : s.extEn = e) :
    CompletesWith (.cfgRead 0) s { value := e.toNat } :=
  hext ▸ exec_cfgRead_ctrl s

/-- REG_STATUS with the code of the state that the registry is in (R23). -/
theorem exec_cfgRead_regStatus_of_regState {st : RegState} (hst : s.regState = st) :
    CompletesWith (.cfgRead 1) s { value := 4 * s.regCount + st.code.toNat } :=
  hst ▸ exec_cfgRead_regStatus s

/-- Settles O26: the two registers read their value as a number, for each value of EXT_EN and each state. -/
theorem cfgReadOfEveryRegister : Obligations.CfgReadOfEveryRegister := by
  refine fun s reg => ⟨exec_cfgRead_of_wide_reg, ?ctrlFalse, ?ctrlTrue, ?building, ?sealed, ?aborted,
    fun hlow hreg => exec_cfgRead_of_undefined hreg (by omega) (by omega)⟩
  case ctrlFalse | ctrlTrue =>
    rintro rfl hext
    exact exec_cfgRead_ctrl_of_extEn hext
  case building | sealed | aborted =>
    rintro rfl hst
    exact exec_cfgRead_regStatus_of_regState hst

/-! ### Undefined operation codes (R109) -/

/-- Settles O28: the operation is `raise` in every state, and an error changes nothing else (R117). -/
theorem undefinedOpCodesCompleteWithIllegalOperation :
    Obligations.UndefinedOpCodesCompleteWithIllegalOperation := by
  intro s op
  show execIllegal op s = raise .illegalOperation (.operand .op) s
  rw [execIllegal]

end Sys2Proof.Machine
end

section
/-! The errors of the block (spec 60_exceptions.md): the status codes of R110 and I10, and what a request that
ends in an error writes (R113). -/

namespace Sys2Proof.Machine

/-! ### The status codes (R110) -/

/-- I10: the codes above IllegalOperation's are never produced. -/
theorem Status.code_le_nine (st : Status) : st.code.toNat ≤ 9 := by
  cases st <;> decide

/-- Settles O29: each code is its line of R110's table. -/
theorem statusCodes : Obligations.StatusCodes :=
  ⟨rfl, rfl, rfl, rfl, rfl, rfl, rfl, rfl, rfl, rfl, Status.code_le_nine⟩

/-! ### What an error writes (R113) -/

variable {i : Instr} {s s' : State} {r : Result}

/-- The three effects of an error: nothing is written, a second registration aborts the construction, or a frame
of an unknown id goes to UNKNOWN. -/
theorem Effect.error_cases (he : Effect i s r s') (hok : r.status ≠ .ok) :
    (s' = s ∧ r.status ≠ .duplicateFrameId ∧
      (r.status = .unknownFrameId → ∀ len frame, i ≠ .envDecode len frame)) ∨
    (r.status = .duplicateFrameId ∧ s' = { s with regState := .aborted }) ∨
    (r.status = .unknownFrameId ∧ (∃ len frame, i = .envDecode len frame) ∧
      ∃ p, s' = { s with dlog := s.dlog ++ [{ port := .unknown, record := p }] }) := by
  cases he with
  | quiet _ hdup hunknown => exact .inl ⟨rfl, hdup, hunknown⟩
  | aborting => exact .inr (.inl ⟨rfl, rfl⟩)
  | delivering bytes p st port hi _ _ hd =>
    rcases dispatch_cases p.id s with ⟨-, hd'⟩ | ⟨-, -, hd'⟩ | ⟨-, _, -, hd'⟩ <;> rw [hd] at hd' <;> cases hd'
    · exact .inr (.inr ⟨rfl, ⟨_, _, hi⟩, p, rfl⟩)
    · exact absurd rfl hok
  | selecting | inserting | sealing | clearing => exact absurd rfl hok

/-- Settles O19: each of the three effects of an error, against R113 and its two exceptions. -/
theorem errorsWriteNoBlockState : Obligations.ErrorsWriteNoBlockState := by
  intro i s t r hx hres hok
  obtain ⟨s', he, rfl⟩ := exec_effect_of_results hx hres
  simp only [complete_block, complete_dlog]
  rcases he.error_cases hok with ⟨rfl, hdup, hunknown⟩ | ⟨hst, rfl⟩ | ⟨hst, ⟨len, frame, hi⟩, p, rfl⟩
  · exact ⟨fun _ => rfl, fun h => absurd h hdup, fun _ => rfl, fun len frame hi h => absurd hi (hunknown h len frame)⟩
  · exact ⟨fun h => absurd hst h, fun _ => rfl, fun _ => rfl,
      fun _ _ _ h => absurd (hst.symm.trans h) (by decide)⟩
  · refine ⟨fun _ => rfl, fun h => absurd (hst.symm.trans h) (by decide), ?_, fun _ _ _ _ => ⟨p, rfl⟩⟩
    rintro (hother | hne)
    · exact absurd hi (hother len frame)
    · exact absurd hst hne

end Sys2Proof.Machine
end


section
/-! Reset (spec 70_reset_and_hazards.md R122 to R124): what it sets and what it leaves, field by field from the
laws of `takeReset`, and that it is a step of the port after which the registry is empty. -/

namespace Sys2Proof.Machine

variable {s : State} {rest : List PortEvent}

/-! ### The state that a reset leaves (R122) -/

theorem takeReset_entry_eq {e : Entry} (he : e ∈ (takeReset s).entries) : e = {} :=
  List.eq_of_mem_replicate (takeReset_entries s ▸ he)

/-- Settles O9: the table is as many default entries as the parameters say; the rest is a field each. -/
theorem resetSetsTheBlock : Obligations.ResetSetsTheBlock := by
  refine fun s => ⟨takeReset_extEn s, takeReset_regState s, takeReset_regCount s, by simp, fun e he => ?_,
    takeReset_dlog s, takeReset_q s⟩
  obtain rfl := takeReset_entry_eq he
  exact ⟨rfl, rfl, rfl, rfl⟩

/-! ### The step that a reset is (R123, R124) -/

theorem step_of_reset (hport : s.port = .reset :: rest) : step s = .next (takeReset { s with port := rest }) := by
  rw [step, hport]

theorem takeReset_not_registered (id : FrameId) : ¬ (takeReset s).Registered id :=
  not_registered_of_count_zero (takeReset_regCount s) id

/-- The registry is empty and open, so that no lookup finds an entry or is aborted (R124). -/
theorem exec_regLookup_takeReset {id : Nat} (hid : id < 2 ^ 16) :
    CompletesWith (.regLookup id) (takeReset s) { status := .unknownFrameId, info := .operand .id } :=
  exec_regLookup_of_not_registered hid (by simp) (takeReset_not_registered _)

/-- Settles O10: the step's branch for a reset, then the fields that `takeReset` keeps and the empty registry. -/
theorem resetIsAStepOfItsOwn : Obligations.ResetIsAStepOfItsOwn :=
  fun _ _ hport => ⟨_, step_of_reset hport, rfl, takeReset_cfg _, takeReset_port _, takeReset_results _,
    fun _ => exec_regLookup_takeReset⟩

end Sys2Proof.Machine
end


section
/-! Envelope requests whose buffer is missing (92_eei_decisions.md D24, log entry 9): each ends in
IllegalOperation as a record of the wrong shape, but for ENV_DECODE's check of MAX_FRAME, which comes first. -/

namespace Sys2Proof.Machine

variable {s : State} {len : Nat}

theorem exec_envEncode_of_no_payload (o : EnvelopeOperands) :
    CompletesWith (.envEncode o none) s { status := .illegalOperation, info := .operand .payload } := by
  show execEnvEncode o none s = raise .illegalOperation (.operand .payload) s
  rw [execEnvEncode]

theorem exec_envDecode_of_no_frame (hmax : len ≤ s.cfg.maxFrame) :
    CompletesWith (.envDecode len none) s { status := .illegalOperation, info := .operand .frame } := by
  show execEnvDecode len none s = raise .illegalOperation (.operand .frame) s
  rw [execEnvDecode, if_neg hmax.not_gt]

/-- Settles O54: ENV_ENCODE looks at its payload first, ENV_DECODE at its frame once the length is in MAX_FRAME. -/
theorem missingBuffersAreIllegal : Obligations.MissingBuffersAreIllegal :=
  fun _ => ⟨exec_envEncode_of_no_payload, fun _ => exec_envDecode_of_no_frame, fun _ => exec_envDecode_of_long none⟩

end Sys2Proof.Machine
end
